-- ==== Sys2Proof/Word.lean ====
section
/-! DEFINITION. The word types of the Chip-8 core: bytes, 16-bit words, 12-bit address immediates and register indices (rules R3, R5, R33, R34). -/

namespace Sys2Proof

/-- An 8-bit unsigned value: a V register, a timer, a memory byte or the immediate NN (rules R5, R10, R11, R14, R35). -/
abbrev Byte := BitVec 8

/-- A 16-bit unsigned value: an opcode, the program counter, the index register or a stack entry (rules R7, R8, R9, R33). -/
abbrev Word := BitVec 16

/-- The 12-bit address immediate NNN (rule R34). -/
abbrev Imm12 := BitVec 12

/-- The number of a V register, from a 4-bit field (rules R5, R34). -/
abbrev RegIdx := Fin 16

end Sys2Proof
end

