-- ==== Sys2Proof/Syntax.lean ====
section
/-! DEFINITION. The 35 instructions, one constructor for each row of the opcode table, in the table's order (rules R2, R36). Each operand has the type of its field (rule R34), so no instruction with an operand out of range can be written. -/

namespace Sys2Proof

/-- One fetched opcode, its fields taken apart. The names follow the conventional mnemonics of 30_encoding.md; the
docstrings give the opcode pattern. -/
inductive Instr where
  /-- 0000: no-op (rule R41). -/
  | nop
  /-- 00E0: clear the display (rule R69). -/
  | cls
  /-- 00EE: return from subroutine (rule R42). -/
  | ret
  /-- 1NNN: jump (rule R43). -/
  | jp (nnn : Imm12)
  /-- 2NNN: call (rule R44). -/
  | call (nnn : Imm12)
  /-- 3XNN: skip if `V[X]` equals NN (rule R45). -/
  | seImm (x : RegIdx) (nn : Byte)
  /-- 4XNN: skip if `V[X]` differs from NN (rule R46). -/
  | sneImm (x : RegIdx) (nn : Byte)
  /-- 5XY0: skip if `V[X]` equals `V[Y]` (rule R47). -/
  | seReg (x y : RegIdx)
  /-- 6XNN: load an immediate (rule R51). -/
  | ldImm (x : RegIdx) (nn : Byte)
  /-- 7XNN: add an immediate, no flag (rule R52). -/
  | addImm (x : RegIdx) (nn : Byte)
  /-- 8XY0: copy a register (rule R53). -/
  | ldReg (x y : RegIdx)
  /-- 8XY1: bitwise OR (rule R54). -/
  | orReg (x y : RegIdx)
  /-- 8XY2: bitwise AND (rule R55). -/
  | andReg (x y : RegIdx)
  /-- 8XY3: bitwise XOR (rule R56). -/
  | xorReg (x y : RegIdx)
  /-- 8XY4: add with carry (rule R57). -/
  | addReg (x y : RegIdx)
  /-- 8XY5: `V[X] - V[Y]` with not-borrow (rule R58). -/
  | subReg (x y : RegIdx)
  /-- 8XY6: shift right by one (rule R59). Y is a field of the word that the instruction ignores (rule R37). -/
  | shrReg (x y : RegIdx)
  /-- 8XY7: `V[Y] - V[X]` with not-borrow (rule R60). -/
  | subnReg (x y : RegIdx)
  /-- 8XYE: shift left by one (rule R61). Y is a field of the word that the instruction ignores (rule R37). -/
  | shlReg (x y : RegIdx)
  /-- 9XY0: skip if `V[X]` differs from `V[Y]` (rule R48). -/
  | sneReg (x y : RegIdx)
  /-- ANNN: set the index register (rule R63). -/
  | ldI (nnn : Imm12)
  /-- BNNN: jump to `V[0] + NNN` (rule R49). -/
  | jpV0 (nnn : Imm12)
  /-- CXNN: random byte AND NN (rule R62). -/
  | rnd (x : RegIdx) (nn : Byte)
  /-- DXYN: draw N sprite rows by XOR (rule R70). -/
  | drw (x y : RegIdx) (n : Fin 16)
  /-- EX9E: skip if key `V[X]` is held (rule R72). -/
  | skp (x : RegIdx)
  /-- EXA1: skip if key `V[X]` is not held (rule R73). -/
  | sknp (x : RegIdx)
  /-- FX07: read the delay timer (rule R74). -/
  | ldVxDt (x : RegIdx)
  /-- FX0A: wait for a held key (rule R75). -/
  | ldVxKey (x : RegIdx)
  /-- FX15: set the delay timer (rule R76). -/
  | ldDtVx (x : RegIdx)
  /-- FX18: set the sound timer (rule R77). -/
  | ldStVx (x : RegIdx)
  /-- FX1E: add a register to the index register (rule R64). -/
  | addI (x : RegIdx)
  /-- FX29: point the index register at a font glyph (rule R65). -/
  | ldFont (x : RegIdx)
  /-- FX33: store three decimal digits (rule R66). -/
  | bcd (x : RegIdx)
  /-- FX55: store `V[0]` to `V[X]` (rule R67). -/
  | stRegs (x : RegIdx)
  /-- FX65: load `V[0]` to `V[X]` (rule R68). -/
  | ldRegs (x : RegIdx)
  deriving DecidableEq, Repr

end Sys2Proof
end

