-- ==== Sys2Proof/WellFormed.lean ====
section
/-! DEFINITION. What a well-formed instruction and a defined opcode are: the width check on every operand (rules R34, R35) and the match and mask table of rule R36. -/

namespace Sys2Proof

/-- One row of the opcode table: its pattern's name, the bits it fixes, and their values (rule R36). -/
structure Row where
  mnemonic : String
  mask : Word
  pattern : Word
  deriving DecidableEq, Repr

/-- An opcode selects a row when the row's fixed bits have the row's values (rule R36). -/
def Row.selectedBy (r : Row) (op : Word) : Bool := op &&& r.mask == r.pattern

/-- The row of the opcode table that an instruction stands for (rule R36, spec/opcode_table.json). -/
def Instr.row : Instr → Row
  | .nop => ⟨"0000", 0xFFFF#16, 0x0000#16⟩
  | .cls => ⟨"00E0", 0xFFFF#16, 0x00E0#16⟩
  | .ret => ⟨"00EE", 0xFFFF#16, 0x00EE#16⟩
  | .jp _ => ⟨"1NNN", 0xF000#16, 0x1000#16⟩
  | .call _ => ⟨"2NNN", 0xF000#16, 0x2000#16⟩
  | .seImm _ _ => ⟨"3XNN", 0xF000#16, 0x3000#16⟩
  | .sneImm _ _ => ⟨"4XNN", 0xF000#16, 0x4000#16⟩
  | .seReg _ _ => ⟨"5XY0", 0xF00F#16, 0x5000#16⟩
  | .ldImm _ _ => ⟨"6XNN", 0xF000#16, 0x6000#16⟩
  | .addImm _ _ => ⟨"7XNN", 0xF000#16, 0x7000#16⟩
  | .ldReg _ _ => ⟨"8XY0", 0xF00F#16, 0x8000#16⟩
  | .orReg _ _ => ⟨"8XY1", 0xF00F#16, 0x8001#16⟩
  | .andReg _ _ => ⟨"8XY2", 0xF00F#16, 0x8002#16⟩
  | .xorReg _ _ => ⟨"8XY3", 0xF00F#16, 0x8003#16⟩
  | .addReg _ _ => ⟨"8XY4", 0xF00F#16, 0x8004#16⟩
  | .subReg _ _ => ⟨"8XY5", 0xF00F#16, 0x8005#16⟩
  | .shrReg _ _ => ⟨"8XY6", 0xF00F#16, 0x8006#16⟩
  | .subnReg _ _ => ⟨"8XY7", 0xF00F#16, 0x8007#16⟩
  | .shlReg _ _ => ⟨"8XYE", 0xF00F#16, 0x800E#16⟩
  | .sneReg _ _ => ⟨"9XY0", 0xF00F#16, 0x9000#16⟩
  | .ldI _ => ⟨"ANNN", 0xF000#16, 0xA000#16⟩
  | .jpV0 _ => ⟨"BNNN", 0xF000#16, 0xB000#16⟩
  | .rnd _ _ => ⟨"CXNN", 0xF000#16, 0xC000#16⟩
  | .drw _ _ _ => ⟨"DXYN", 0xF000#16, 0xD000#16⟩
  | .skp _ => ⟨"EX9E", 0xF0FF#16, 0xE09E#16⟩
  | .sknp _ => ⟨"EXA1", 0xF0FF#16, 0xE0A1#16⟩
  | .ldVxDt _ => ⟨"FX07", 0xF0FF#16, 0xF007#16⟩
  | .ldVxKey _ => ⟨"FX0A", 0xF0FF#16, 0xF00A#16⟩
  | .ldDtVx _ => ⟨"FX15", 0xF0FF#16, 0xF015#16⟩
  | .ldStVx _ => ⟨"FX18", 0xF0FF#16, 0xF018#16⟩
  | .addI _ => ⟨"FX1E", 0xF0FF#16, 0xF01E#16⟩
  | .ldFont _ => ⟨"FX29", 0xF0FF#16, 0xF029#16⟩
  | .bcd _ => ⟨"FX33", 0xF0FF#16, 0xF033#16⟩
  | .stRegs _ => ⟨"FX55", 0xF0FF#16, 0xF055#16⟩
  | .ldRegs _ => ⟨"FX65", 0xF0FF#16, 0xF065#16⟩

/-- One instruction for each of the table's rows 0000 to 5XY0. -/
def Instr.flowRows : List Instr := [.nop, .cls, .ret, .jp 0, .call 0, .seImm 0 0, .sneImm 0 0, .seReg 0 0]

/-- One instruction for each of the table's rows 6XNN to 8XYE. -/
def Instr.aluRows : List Instr := [.ldImm 0 0, .addImm 0 0, .ldReg 0 0, .orReg 0 0, .andReg 0 0, .xorReg 0 0, .addReg 0 0, .subReg 0 0, .shrReg 0 0, .subnReg 0 0, .shlReg 0 0]

/-- One instruction for each of the table's rows 9XY0 to DXYN. -/
def Instr.indexRows : List Instr := [.sneReg 0 0, .ldI 0, .jpV0 0, .rnd 0 0, .drw 0 0 0]

/-- One instruction for each of the table's rows EX9E to FX18. -/
def Instr.keysTimersRows : List Instr := [.skp 0, .sknp 0, .ldVxDt 0, .ldVxKey 0, .ldDtVx 0, .ldStVx 0]

/-- One instruction for each of the table's rows FX1E to FX65. -/
def Instr.memoryRows : List Instr := [.addI 0, .ldFont 0, .bcd 0, .stRegs 0, .ldRegs 0]

/-- One instruction of each row, in the table's order. -/
def Instr.oneOfEach : List Instr :=
  List.flatten [Instr.flowRows, Instr.aluRows, Instr.indexRows, Instr.keysTimersRows, Instr.memoryRows]

/-- The opcode table of rule R36: 35 rows. -/
def opcodeTable : List Row := Instr.oneOfEach.map Instr.row

/-- An opcode is defined when some row matches it; the others are undefined (rules R36, R38). -/
def isDefined (op : Word) : Bool := opcodeTable.any (fun r => r.selectedBy op)

/-- An operand's value beside the width of its field. -/
structure Operand where
  value : Nat
  width : Nat
  deriving DecidableEq, Repr

/-- A value fits its field when it is below two to the field's width (rule R34). -/
def Operand.fits (o : Operand) : Bool := decide (o.value < 2 ^ o.width)

/-- The operands of an instruction, highest field first (rule R34). -/
def Instr.operands : Instr → List Operand
  | .nop => []
  | .cls => []
  | .ret => []
  | .jp nnn => [⟨nnn.toNat, 12⟩]
  | .call nnn => [⟨nnn.toNat, 12⟩]
  | .seImm x nn => [⟨x.val, 4⟩, ⟨nn.toNat, 8⟩]
  | .sneImm x nn => [⟨x.val, 4⟩, ⟨nn.toNat, 8⟩]
  | .seReg x y => [⟨x.val, 4⟩, ⟨y.val, 4⟩]
  | .ldImm x nn => [⟨x.val, 4⟩, ⟨nn.toNat, 8⟩]
  | .addImm x nn => [⟨x.val, 4⟩, ⟨nn.toNat, 8⟩]
  | .ldReg x y => [⟨x.val, 4⟩, ⟨y.val, 4⟩]
  | .orReg x y => [⟨x.val, 4⟩, ⟨y.val, 4⟩]
  | .andReg x y => [⟨x.val, 4⟩, ⟨y.val, 4⟩]
  | .xorReg x y => [⟨x.val, 4⟩, ⟨y.val, 4⟩]
  | .addReg x y => [⟨x.val, 4⟩, ⟨y.val, 4⟩]
  | .subReg x y => [⟨x.val, 4⟩, ⟨y.val, 4⟩]
  | .shrReg x y => [⟨x.val, 4⟩, ⟨y.val, 4⟩]
  | .subnReg x y => [⟨x.val, 4⟩, ⟨y.val, 4⟩]
  | .shlReg x y => [⟨x.val, 4⟩, ⟨y.val, 4⟩]
  | .sneReg x y => [⟨x.val, 4⟩, ⟨y.val, 4⟩]
  | .ldI nnn => [⟨nnn.toNat, 12⟩]
  | .jpV0 nnn => [⟨nnn.toNat, 12⟩]
  | .rnd x nn => [⟨x.val, 4⟩, ⟨nn.toNat, 8⟩]
  | .drw x y n => [⟨x.val, 4⟩, ⟨y.val, 4⟩, ⟨n.val, 4⟩]
  | .skp x => [⟨x.val, 4⟩]
  | .sknp x => [⟨x.val, 4⟩]
  | .ldVxDt x => [⟨x.val, 4⟩]
  | .ldVxKey x => [⟨x.val, 4⟩]
  | .ldDtVx x => [⟨x.val, 4⟩]
  | .ldStVx x => [⟨x.val, 4⟩]
  | .addI x => [⟨x.val, 4⟩]
  | .ldFont x => [⟨x.val, 4⟩]
  | .bcd x => [⟨x.val, 4⟩]
  | .stRegs x => [⟨x.val, 4⟩]
  | .ldRegs x => [⟨x.val, 4⟩]

/-- Every operand fits its field. The operand types carry this bound, so it holds of every `Instr`; what it refuses
are raw operand values (Tests/Slice0.lean). -/
def Instr.wellFormed (i : Instr) : Bool := i.operands.all Operand.fits

end Sys2Proof
end

