-- ==== Sys2Proof/Decode.lean ====
section
/-! DEFINITION. Decoding a 16-bit opcode and a list of bytes into an instruction, total and rejecting by name (rules R25, R33 to R38), and the encoder, written from the same field diagram (rule R34). -/

namespace Sys2Proof

/-- Why bytes are no instruction. -/
inductive DecodeError where
  /-- Fewer than two bytes are left: an opcode is two bytes (rule R33). -/
  | truncated
  /-- No row of the opcode table matches (rule R38). -/
  | undefinedOpcode (op : Word)
  deriving DecidableEq, Repr

/-- n1, the major opcode: op[15:12] (rule R34). -/
def fieldN1 (op : Word) : Nat := (op.extractLsb' 12 4).toNat

/-- X = n2: op[11:8] (rule R34). -/
def fieldX (op : Word) : RegIdx := ⟨(op.extractLsb' 8 4).toNat, (op.extractLsb' 8 4).isLt⟩

/-- Y = n3: op[7:4] (rule R34). -/
def fieldY (op : Word) : RegIdx := ⟨(op.extractLsb' 4 4).toNat, (op.extractLsb' 4 4).isLt⟩

/-- N = n4: op[3:0] (rule R34). -/
def fieldN (op : Word) : Fin 16 := ⟨(op.extractLsb' 0 4).toNat, (op.extractLsb' 0 4).isLt⟩

/-- NN: op[7:0] (rule R34). -/
def fieldNN (op : Word) : Byte := op.extractLsb' 0 8

/-- NNN: op[11:0] (rule R34). -/
def fieldNNN (op : Word) : Imm12 := op.extractLsb' 0 12

/-- The rows with n1 = 0, selected by the whole word (rule R36). -/
def decode0 (op : Word) : Except DecodeError Instr :=
  if op = 0x0000#16 then .ok .nop
  else if op = 0x00E0#16 then .ok .cls
  else if op = 0x00EE#16 then .ok .ret
  else .error (.undefinedOpcode op)

/-- The rows with n1 = 8, selected by n4 (rule R36). -/
def decode8 (op : Word) : Except DecodeError Instr :=
  match (fieldN op).val with
  | 0x0 => .ok (.ldReg (fieldX op) (fieldY op))
  | 0x1 => .ok (.orReg (fieldX op) (fieldY op))
  | 0x2 => .ok (.andReg (fieldX op) (fieldY op))
  | 0x3 => .ok (.xorReg (fieldX op) (fieldY op))
  | 0x4 => .ok (.addReg (fieldX op) (fieldY op))
  | 0x5 => .ok (.subReg (fieldX op) (fieldY op))
  | 0x6 => .ok (.shrReg (fieldX op) (fieldY op))
  | 0x7 => .ok (.subnReg (fieldX op) (fieldY op))
  | 0xE => .ok (.shlReg (fieldX op) (fieldY op))
  | _ => .error (.undefinedOpcode op)

/-- The rows with n1 = E, selected by NN (rule R36). -/
def decodeE (op : Word) : Except DecodeError Instr :=
  if fieldNN op = 0x9E#8 then .ok (.skp (fieldX op))
  else if fieldNN op = 0xA1#8 then .ok (.sknp (fieldX op))
  else .error (.undefinedOpcode op)

/-- The rows with n1 = F, selected by NN (rule R36). -/
def decodeF (op : Word) : Except DecodeError Instr :=
  if fieldNN op = 0x07#8 then .ok (.ldVxDt (fieldX op))
  else if fieldNN op = 0x0A#8 then .ok (.ldVxKey (fieldX op))
  else if fieldNN op = 0x15#8 then .ok (.ldDtVx (fieldX op))
  else if fieldNN op = 0x18#8 then .ok (.ldStVx (fieldX op))
  else if fieldNN op = 0x1E#8 then .ok (.addI (fieldX op))
  else if fieldNN op = 0x29#8 then .ok (.ldFont (fieldX op))
  else if fieldNN op = 0x33#8 then .ok (.bcd (fieldX op))
  else if fieldNN op = 0x55#8 then .ok (.stRegs (fieldX op))
  else if fieldNN op = 0x65#8 then .ok (.ldRegs (fieldX op))
  else .error (.undefinedOpcode op)

/-- Decode one opcode: exactly one row of rule R36's table, or undefined (rule R38). -/
def decodeWord (op : Word) : Except DecodeError Instr :=
  match fieldN1 op with
  | 0x0 => decode0 op
  | 0x1 => .ok (.jp (fieldNNN op))
  | 0x2 => .ok (.call (fieldNNN op))
  | 0x3 => .ok (.seImm (fieldX op) (fieldNN op))
  | 0x4 => .ok (.sneImm (fieldX op) (fieldNN op))
  | 0x5 => if fieldN op = 0 then .ok (.seReg (fieldX op) (fieldY op)) else .error (.undefinedOpcode op)
  | 0x6 => .ok (.ldImm (fieldX op) (fieldNN op))
  | 0x7 => .ok (.addImm (fieldX op) (fieldNN op))
  | 0x8 => decode8 op
  | 0x9 => if fieldN op = 0 then .ok (.sneReg (fieldX op) (fieldY op)) else .error (.undefinedOpcode op)
  | 0xA => .ok (.ldI (fieldNNN op))
  | 0xB => .ok (.jpV0 (fieldNNN op))
  | 0xC => .ok (.rnd (fieldX op) (fieldNN op))
  | 0xD => .ok (.drw (fieldX op) (fieldY op) (fieldN op))
  | 0xE => decodeE op
  | 0xF => decodeF op
  | _ => .error (.undefinedOpcode op)

/-- The 16-bit opcode of two bytes, the first (lower address) being the high byte (rule R25). -/
def wordOfBytes (hi lo : Byte) : Word := hi ++ lo

/-- The bytes of an opcode, as memory stores them: high byte first (rule R25). -/
def bytesOfWord (op : Word) : Byte × Byte := (op.extractLsb' 8 8, op.extractLsb' 0 8)

/-- Decode the first instruction of a list of bytes, and give the bytes after it (rules R25, R33). -/
def decodeBytes : List Byte → Except DecodeError (Instr × List Byte)
  | hi :: lo :: rest =>
    match decodeWord (wordOfBytes hi lo) with
    | .ok i => .ok (i, rest)
    | .error e => .error e
  | _ => .error .truncated

/-- The opcode with n1, then the low 12 bits NNN (rule R34). -/
def encodeNNN (n1 : Nat) (nnn : Imm12) : Word := BitVec.ofNat 16 (n1 * 4096 + nnn.toNat)

/-- The opcode with n1, X and the low byte NN (rule R34). -/
def encodeXNN (n1 : Nat) (x : RegIdx) (nn : Byte) : Word := BitVec.ofNat 16 (n1 * 4096 + x.val * 256 + nn.toNat)

/-- The opcode with n1, X, Y and n4 (rule R34). -/
def encodeXYN (n1 : Nat) (x y : RegIdx) (n4 : Fin 16) : Word :=
  BitVec.ofNat 16 (n1 * 4096 + x.val * 256 + y.val * 16 + n4.val)

/-- The opcode of an instruction: its fields put in the places of rule R34 beside the fixed bits of its row (rule R36). -/
def encode : Instr → Word
  | .nop => 0x0000#16
  | .cls => 0x00E0#16
  | .ret => 0x00EE#16
  | .jp nnn => encodeNNN 0x1 nnn
  | .call nnn => encodeNNN 0x2 nnn
  | .seImm x nn => encodeXNN 0x3 x nn
  | .sneImm x nn => encodeXNN 0x4 x nn
  | .seReg x y => encodeXYN 0x5 x y 0x0
  | .ldImm x nn => encodeXNN 0x6 x nn
  | .addImm x nn => encodeXNN 0x7 x nn
  | .ldReg x y => encodeXYN 0x8 x y 0x0
  | .orReg x y => encodeXYN 0x8 x y 0x1
  | .andReg x y => encodeXYN 0x8 x y 0x2
  | .xorReg x y => encodeXYN 0x8 x y 0x3
  | .addReg x y => encodeXYN 0x8 x y 0x4
  | .subReg x y => encodeXYN 0x8 x y 0x5
  | .shrReg x y => encodeXYN 0x8 x y 0x6
  | .subnReg x y => encodeXYN 0x8 x y 0x7
  | .shlReg x y => encodeXYN 0x8 x y 0xE
  | .sneReg x y => encodeXYN 0x9 x y 0x0
  | .ldI nnn => encodeNNN 0xA nnn
  | .jpV0 nnn => encodeNNN 0xB nnn
  | .rnd x nn => encodeXNN 0xC x nn
  | .drw x y n => encodeXYN 0xD x y n
  | .skp x => encodeXNN 0xE x 0x9E#8
  | .sknp x => encodeXNN 0xE x 0xA1#8
  | .ldVxDt x => encodeXNN 0xF x 0x07#8
  | .ldVxKey x => encodeXNN 0xF x 0x0A#8
  | .ldDtVx x => encodeXNN 0xF x 0x15#8
  | .ldStVx x => encodeXNN 0xF x 0x18#8
  | .addI x => encodeXNN 0xF x 0x1E#8
  | .ldFont x => encodeXNN 0xF x 0x29#8
  | .bcd x => encodeXNN 0xF x 0x33#8
  | .stRegs x => encodeXNN 0xF x 0x55#8
  | .ldRegs x => encodeXNN 0xF x 0x65#8

/-- The instruction's bytes, as memory stores them (rule R25). -/
def encodeBytes (i : Instr) : List Byte := [(bytesOfWord (encode i)).1, (bytesOfWord (encode i)).2]

/-- The opcode of `nbits` bits given as a number, bit 0 the least significant (the opcode table's numbering); bits at
`nbits` and above are 0. -/
def tableWord (nbits w : Nat) : Word := BitVec.ofNat 16 (w % 2 ^ nbits)

/-- What the decoder reads from that opcode's bytes, laid out as memory stores them (rule R25). -/
def decodeTableWord (nbits w : Nat) : Option Instr :=
  match decodeBytes [(bytesOfWord (tableWord nbits w)).1, (bytesOfWord (tableWord nbits w)).2] with
  | .ok (i, _) => some i
  | .error _ => none

end Sys2Proof
end

