-- ==== Sys2Proof/Machine/Font.lean ====
section
/-! DEFINITION. The configuration parameter FONT (rules R19, R20): the 80 bytes memory holds at [0, 80) after reset. -/

namespace Sys2Proof.Machine

/-- The glyphs 0 to 7, five bytes each, top row first (rule R20). -/
def fontLow : List Byte :=
  [0xF0, 0x90, 0x90, 0x90, 0xF0] ++ [0x20, 0x60, 0x20, 0x20, 0x70] ++
  [0xF0, 0x10, 0xF0, 0x80, 0xF0] ++ [0xF0, 0x10, 0xF0, 0x10, 0xF0] ++
  [0x90, 0x90, 0xF0, 0x10, 0x10] ++ [0xF0, 0x80, 0xF0, 0x10, 0xF0] ++
  [0xF0, 0x80, 0xF0, 0x90, 0xF0] ++ [0xF0, 0x10, 0x20, 0x40, 0x40]

/-- The glyphs 8 to F (rule R20). -/
def fontHigh : List Byte :=
  [0xF0, 0x90, 0xF0, 0x90, 0xF0] ++ [0xF0, 0x90, 0xF0, 0x10, 0xF0] ++
  [0xF0, 0x90, 0xF0, 0x90, 0x90] ++ [0xE0, 0x90, 0xE0, 0x90, 0xE0] ++
  [0xF0, 0x80, 0x80, 0x80, 0xF0] ++ [0xE0, 0x90, 0x90, 0x90, 0xE0] ++
  [0xF0, 0x80, 0xF0, 0x80, 0xF0] ++ [0xF0, 0x80, 0xF0, 0x80, 0x80]

/-- FONT at its default value. PRESUMED, unsafe (log entry 3): the source never lists the bytes and rule R20 takes the
table from general knowledge, so a claim that depends on a glyph's pixels must name this definition. -/
def font : List Byte := fontLow ++ fontHigh

end Sys2Proof.Machine
end

