-- ==== Sys2Proof/Config.lean ====
section
/-! DEFINITION. What is fixed for the machine (the sizes of rule R3) and its one free value (the random byte of rule R93). The font, whose bytes a test could show wrong, stands in Machine/Font.lean. -/

namespace Sys2Proof

/-- `MEM_SIZE`: the number of bytes of memory (rules R3, R17). -/
@[simp] abbrev Config.memSize : Nat := 4096

/-- `PROGRAM_START`: where `load` puts the program, and `pc` after reset (rules R3, R100, R101). -/
@[simp] abbrev Config.programStart : Nat := 512

/-- `LOAD_MAX`: the most bytes `load` takes (rules R3, R101). -/
@[simp] abbrev Config.loadMax : Nat := 3584

/-- `RandomByte` (rules R62, R93): the n-th byte that CXNN draws from outside the core.
DESIGN CHOICE, safe (log entry 4): a free value. It has no body, so nothing in Lean can know a byte of it, and a claim
proved of it holds for every sequence of draws. -/
opaque Config.randomByte : Nat → Byte

end Sys2Proof
end

