-- ==== Sys2Proof/Machine/State.lean ====
section
/-! DEFINITION. The machine's state as plain data (rules R5 to R16), the fault record it latches (rules R79, R80), the reset state (rule R100), and the reasons an operation can stop with. -/

namespace Sys2Proof.Machine

/-- Memory: the bytes that differ from the reset contents, in one canonical form (`Memory.wf`, Machine/Ops.lean).
An address not listed reads as `Memory.initial` (rules R14, R17, R18). -/
abbrev Memory := List Host.Cell

/-- The framebuffer, row-major: 32 rows of 64 one-bit cells, true meaning lit (rule R13). Cell (x, y), which rule R13
numbers `x + 64*y`, is entry x of row y. -/
abbrev Display := Vector (Vector Bool 64) 32

/-- The reasons a tick faults (rule R79). Each one is TAKEN by the machine: the tick is rolled back and the fault is
latched (rules R83, R84), and the outcome of the step is a next state (log entry 1). -/
inductive FaultCode where
  /-- Raised by fetch: `pc + 1 ≥ 4096` (rule R26). -/
  | fetchOutOfRange
  /-- Raised by fetch: `pc` is odd (rule R26). -/
  | fetchMisaligned
  /-- Raised by decode: no row matches (rule R38). -/
  | undefinedOpcode
  /-- Raised by 2NNN: `sp` is 16 (rule R44). -/
  | stackOverflow
  /-- Raised by 00EE: `sp` is 0 (rule R42). -/
  | stackUnderflow
  /-- Raised by DXYN, FX33, FX55, FX65: a data address of 4096 or more (rules R22 to R24). -/
  | memoryOutOfRange
  /-- Raised by EX9E, EXA1: `V[X]` is 16 or more (rules R72, R73). -/
  | keyIndexOutOfRange
  deriving DecidableEq, Repr

/-- What a fault records (rule R80): the reason, the address of the faulting instruction, the opcode if one was
fetched, and the value that rule R79 names. `info` is a natural number because that value is a `pc`, an opcode, a stack
pointer, an exact data address or a register, as the reason has it. -/
structure FaultRecord where
  code : FaultCode
  pc : Word
  opcode : Option Word
  info : Nat
  deriving DecidableEq, Repr

/-- The machine's state: every field of 10_state.md, and one field of the model's own (`draws`). -/
structure State where
  /-- The general registers V0 to VF (rules R5, R6). -/
  v : Vector Byte 16
  /-- The program counter (rule R7). -/
  pc : Word
  /-- The index register I (rule R8). -/
  i : Word
  /-- The return stack's entries (rule R9). -/
  stack : Vector Word 16
  /-- The stack pointer: the number of valid entries, in [0, 16] (rule R9). -/
  sp : Fin 17
  /-- The delay timer DT (rule R10). -/
  dt : Byte
  /-- The sound timer ST (rule R11). -/
  st : Byte
  /-- The keypad latch: true means held (rule R12). -/
  keys : Vector Bool 16
  /-- The framebuffer (rule R13). -/
  display : Display
  /-- The memory (rule R14). -/
  mem : Memory
  /-- The fault latch (rule R15). -/
  fault : Option FaultRecord
  /-- The MODEL's own field, not the spec's: how many bytes CXNN has drawn from `Config.randomByte`. It only makes
  each draw a fresh free value (log entry 4). -/
  draws : Nat
  deriving DecidableEq, Repr

/-- The one error that ends an operation without a next state. No instruction and no tick ends in it: every fatal
condition of a tick is taken and latched (`FaultCode`). -/
inductive Fault where
  /-- Raised only by the host operation `load` with more than 3584 bytes: `Err(LOAD_TOO_LARGE)`, code 8, no state
  changes and the latch is not set (rules R79, R101). Safe: the spec gives exactly this. -/
  | loadTooLarge
  deriving DecidableEq, Repr

/-- What the model does not give a meaning to. -/
inductive Refusal where
  /-- An instruction whose meaning is not written. Raised by no arm of `exec`: all 35 have their meaning. Safe. -/
  | notModelled (mnemonic : String)
  deriving DecidableEq, Repr

/-- What an operation of the machine answers. -/
abbrev Result := Host.Outcome State Fault Refusal

/-- The reset state (rule R100). Memory lists nothing: every address reads as its reset contents, the font in [0, 80)
and 0 above. `draws` is the model's own field (log entry 4); all the other values are the spec's. -/
def State.reset : State where
  v := Vector.replicate 16 0#8
  pc := 0x200#16
  i := 0#16
  stack := Vector.replicate 16 0#16
  sp := 0
  dt := 0#8
  st := 0#8
  keys := Vector.replicate 16 false
  display := Vector.replicate 32 (Vector.replicate 64 false)
  mem := []
  fault := none
  draws := 0

end Sys2Proof.Machine
end

