-- ==== Sys2Proof/Machine/Ops.lean ====
section
/-! DEFINITION. The named operations over memory, registers and program counter (rules R5, R17 to R27), fetch (rule R26), and taking a fault (rules R78 to R84). -/

namespace Sys2Proof.Machine

/-! ### Memory -/

/-- What an address that memory does not list reads as: the reset contents, FONT in [0, 80) and 0 above (rule R18). -/
def Memory.initial (a : Nat) : Byte := font.getD a 0#8

/-- The byte at an address (rules R14, R29). -/
def Memory.read (m : Memory) (a : Nat) : Byte := (m.lookup a).getD (Memory.initial a)

/-- List a cell at its place by address. -/
def Memory.insertCell : Memory → Nat → Byte → Memory
  | [], a, v => [(a, v)]
  | (b, w) :: m, a, v => if a < b then (a, v) :: (b, w) :: m else (b, w) :: Memory.insertCell m a v

/-- Set the byte at an address. Writing what the address reads as when it is not listed removes its cell. -/
def Memory.write (m : Memory) (a : Nat) (v : Byte) : Memory :=
  if v = Memory.initial a then m.filter (fun c => c.1 != a)
  else Memory.insertCell (m.filter (fun c => c.1 != a)) a v

/-- The canonical form: addresses strictly rising and inside memory, and no cell that says what its address reads as
anyway. -/
abbrev Memory.wf (m : Memory) : Prop :=
  m.Pairwise (fun c d => c.1 < d.1) ∧ ∀ c ∈ m, c.1 < Config.memSize ∧ c.2 ≠ Memory.initial c.1

/-- `MemRead(addr, 1)` (rule R23): the byte, or the address that is out of range. -/
def memRead (m : Memory) (a : Nat) : Except Nat Byte :=
  if a < Config.memSize then .ok (m.read a) else .error a

/-- `MemWrite(addr, 1, v)` (rule R24): the memory after it, or the address that is out of range. -/
def memWrite (m : Memory) (a : Nat) (v : Byte) : Except Nat Memory :=
  if a < Config.memSize then .ok (m.write a v) else .error a

/-- `n` one-byte reads from `a` up, in increasing address order, ending at the first that is out of range (rule R28). -/
def readBlock (m : Memory) (a : Nat) : Nat → Except Nat (List Byte)
  | 0 => .ok []
  | n + 1 =>
    match memRead m a with
    | .error e => .error e
    | .ok b =>
      match readBlock m (a + 1) n with
      | .error e => .error e
      | .ok bs => .ok (b :: bs)

/-- One-byte writes from `a` up, in increasing address order, ending at the first that is out of range (rule R28). -/
def writeBlock (m : Memory) (a : Nat) : List Byte → Except Nat Memory
  | [] => .ok m
  | b :: bs =>
    match memWrite m a b with
    | .error e => .error e
    | .ok m' => writeBlock m' (a + 1) bs

/-! ### Registers and control -/

/-- VF, the flag register (rule R6). -/
def vf : RegIdx := 15

/-- Read `V[x]` (rule R5). -/
def State.readV (s : State) (x : RegIdx) : Byte := s.v[x]

/-- Write `V[x]` (rule R5). -/
def State.writeV (s : State) (x : RegIdx) (b : Byte) : State := { s with v := s.v.set x.val b x.isLt }

/-- Write consecutive registers from number `k` up (rule R68). -/
def writeRegs (v : Vector Byte 16) (k : Nat) : List Byte → Vector Byte 16
  | [] => v
  | b :: bs => writeRegs (v.setIfInBounds k b) (k + 1) bs

/-- `pc <- target`. No target is checked here; it is checked at the next fetch (rule R27). -/
def State.jump (s : State) (target : Word) : State := { s with pc := target }

/-- `pc <- pc + 2`: what fetch does (rule R26), and what a skip does (40_control_flow.md). -/
def State.advance (s : State) : State := { s with pc := s.pc + 2#16 }

/-- `pc <- pc - 2`: back to the address of the instruction being executed (rules R75, R83). -/
def State.rewind (s : State) : State := { s with pc := s.pc - 2#16 }

/-- A skip: `pc <- pc + 2` when the condition holds (rules R45 to R48, R72, R73). -/
def State.skipIf (s : State) (c : Bool) : State := if c then s.advance else s

/-! ### Taking a fault -/

/-- The code of a fault reason (rule R79). -/
def FaultCode.number : FaultCode → Nat
  | .fetchOutOfRange => 1
  | .fetchMisaligned => 2
  | .undefinedOpcode => 3
  | .stackOverflow => 4
  | .stackUnderflow => 5
  | .memoryOutOfRange => 6
  | .keyIndexOutOfRange => 7

/-- The code of the error result of `load` (rule R79). -/
def Fault.number : Fault → Nat
  | .loadTooLarge => 8

/-- Latch a fault in the state as it was before the tick: nothing but `fault` changes (rules R80, R83, R84). There is no
handler to go to and no return from a fault: only `new` and `reset` clear the latch (rules R84, R85). -/
def State.latch (s : State) (code : FaultCode) (opcode : Option Word) (info : Nat) : State :=
  { s with fault := some { code := code, pc := s.pc, opcode := opcode, info := info } }

/-- `raise Fault(REASON, info)` by an instruction that has written nothing yet: fetch's advance of `pc` is taken back,
so that the state is the one before the tick (rule R83), and the fault is latched with the instruction's own opcode
(rules R80, R84). -/
def takeFault (i : Instr) (code : FaultCode) (info : Nat) (s : State) : Result :=
  .next (s.rewind.latch code (some (encode i)) info)

/-! ### Fetch -/

/-- The opcode at `pc`, high byte at the lower address (rule R25). -/
def State.opcodeAt (s : State) : Word := wordOfBytes (s.mem.read s.pc.toNat) (s.mem.read (s.pc.toNat + 1))

/-- Fetch's two checks, out of range first, and the opcode it reads (rule R26). The advance of `pc` is
`State.advance`. -/
def fetch (s : State) : Except FaultCode Word :=
  if Config.memSize ≤ s.pc.toNat + 1 then .error .fetchOutOfRange
  else if s.pc.toNat % 2 = 1 then .error .fetchMisaligned
  else .ok s.opcodeAt

end Sys2Proof.Machine
end

