-- ==== Sys2Proof/Machine/Flags.lean ====
section
/-! DEFINITION. The flag computations (rules R6, R57 to R61, R70) and the order in which a result and a flag are written (rule R50). -/

namespace Sys2Proof.Machine

/-- A flag as the byte VF holds: 1 or 0 (rule R6). -/
def flagByte (f : Bool) : Byte := if f then 1#8 else 0#8

/-- Carry: the exact sum passes 255 (rule R57). -/
def carries (a b : Byte) : Bool := decide (a.toNat + b.toNat > 255)

/-- Not borrow: the exact difference `a - b` is not negative (rules R58, R60). -/
def noBorrow (a b : Byte) : Bool := !decide (a.toNat < b.toNat)

/-- The bit a right shift drops: bit 0 (rule R59). -/
def droppedLow (a : Byte) : Bool := a.getLsbD 0

/-- The bit a left shift drops: bit 7 (rule R61). -/
def droppedHigh (a : Byte) : Bool := a.getLsbD 7

/-- The result goes to `V[x]` first and the flag to VF last, so VF holds the flag when x is 15 (rule R50). -/
def State.writeResultFlag (s : State) (x : RegIdx) (r : Byte) (f : Bool) : State := (s.writeV x r).writeV vf (flagByte f)

end Sys2Proof.Machine
end

