-- ==== Sys2Proof/Machine/Alu.lean ====
section
/-! DEFINITION. The register loads and ALU micro-operations (rules R50 to R62). Operands are read from the state before anything is written; arithmetic is exact on natural numbers and narrowed to 8 bits at the end. -/

namespace Sys2Proof.Machine

/-- 6XNN: load an immediate (rule R51). -/
def execLdImm (x : RegIdx) (nn : Byte) (s : State) : Result := .next (s.writeV x nn)

/-- 7XNN: wrapping add of an immediate, no flag (rule R52). -/
def execAddImm (x : RegIdx) (nn : Byte) (s : State) : Result :=
  .next (s.writeV x (BitVec.ofNat 8 ((s.readV x).toNat + nn.toNat)))

/-- 8XY0: copy (rule R53). -/
def execLdReg (x y : RegIdx) (s : State) : Result := .next (s.writeV x (s.readV y))

/-- 8XY1: OR (rule R54). -/
def execOrReg (x y : RegIdx) (s : State) : Result := .next (s.writeV x (s.readV x ||| s.readV y))

/-- 8XY2: AND (rule R55). -/
def execAndReg (x y : RegIdx) (s : State) : Result := .next (s.writeV x (s.readV x &&& s.readV y))

/-- 8XY3: XOR (rule R56). -/
def execXorReg (x y : RegIdx) (s : State) : Result := .next (s.writeV x (s.readV x ^^^ s.readV y))

/-- 8XY4: wrapping sum, VF the carry (rule R57). -/
def execAddReg (x y : RegIdx) (s : State) : Result :=
  .next (s.writeResultFlag x (BitVec.ofNat 8 ((s.readV x).toNat + (s.readV y).toNat)) (carries (s.readV x) (s.readV y)))

/-- `(a - b + 256) mod 256` (rules R58, R60). -/
def wrappingSub (a b : Byte) : Byte := BitVec.ofNat 8 (a.toNat + 256 - b.toNat)

/-- 8XY5: `vx - vy`, VF not-borrow (rule R58). -/
def execSubReg (x y : RegIdx) (s : State) : Result :=
  .next (s.writeResultFlag x (wrappingSub (s.readV x) (s.readV y)) (noBorrow (s.readV x) (s.readV y)))

/-- 8XY6: `vx` shifted right by one, VF the bit dropped; Y is ignored (rules R37, R59). -/
def execShrReg (x _y : RegIdx) (s : State) : Result :=
  .next (s.writeResultFlag x (BitVec.ofNat 8 ((s.readV x).toNat / 2)) (droppedLow (s.readV x)))

/-- 8XY7: `vy - vx`, VF not-borrow (rule R60). -/
def execSubnReg (x y : RegIdx) (s : State) : Result :=
  .next (s.writeResultFlag x (wrappingSub (s.readV y) (s.readV x)) (noBorrow (s.readV y) (s.readV x)))

/-- 8XYE: `vx` shifted left by one, VF the bit dropped; Y is ignored (rules R37, R61). -/
def execShlReg (x _y : RegIdx) (s : State) : Result :=
  .next (s.writeResultFlag x (BitVec.ofNat 8 ((s.readV x).toNat * 2)) (droppedHigh (s.readV x)))

/-- `RandomByte()`: the next free byte, and the state that has drawn it (rules R62, R93; log entry 4). -/
def State.draw (s : State) : Byte × State := (Config.randomByte s.draws, { s with draws := s.draws + 1 })

/-- CXNN: a random byte AND the immediate (rule R62). -/
def execRnd (x : RegIdx) (nn : Byte) (s : State) : Result := .next (s.draw.2.writeV x (s.draw.1 &&& nn))

end Sys2Proof.Machine
end

