-- ==== Sys2Proof/Machine/Operands.lean ====
section
/-! DEFINITION. The operand forms: zero-extended immediates (rule R35), data addresses (rule R22), the register block of FX55 (rule R67), decimal digits (rule R66), the font address (rule R65), and the key scan (rule R75). -/

namespace Sys2Proof.Machine

/-- `zext_16(NNN)` (rule R35). -/
def zext12 (nnn : Imm12) : Word := nnn.setWidth 16

/-- The data address `I + 0` that a block access starts at: an exact number, no 16-bit wrap (rule R22). -/
def State.dataAddr (s : State) : Nat := s.i.toNat

/-- `V[0]` to `V[x]`, inclusive (rule R67). -/
def State.regBlock (s : State) (x : RegIdx) : List Byte := s.v.toList.take (x.val + 1)

/-- The hundreds, tens and ones of a byte (rule R66). -/
def decimalDigits (b : Byte) : List Byte :=
  [BitVec.ofNat 8 (b.toNat / 100), BitVec.ofNat 8 (b.toNat / 10 % 10), BitVec.ofNat 8 (b.toNat % 10)]

/-- The address of the glyph for a byte, five bytes a glyph (rules R19, R65). -/
def glyphAddr (b : Byte) : Word := BitVec.ofNat 16 (b.toNat * 5)

/-- The lowest-numbered held key, if any (rule R75). -/
def firstHeldKey (keys : Vector Bool 16) : Option (Fin 16) := (List.finRange 16).find? (fun k => keys[k])

end Sys2Proof.Machine
end

