-- ==== Sys2Proof/Machine/ControlFlow.lean ====
section
/-! DEFINITION. The control-flow instructions (rules R41 to R49). Each meaning runs on the state after fetch, so `pc` is the instruction's address plus 2 (rule R40). -/

namespace Sys2Proof.Machine

/-- 0000: nothing (rule R41). -/
def execNop (s : State) : Result := .next s

/-- 00EE: pop the return address, or fault on an empty stack (rule R42). -/
def execRet (s : State) : Result :=
  if h : s.sp.val = 0 then takeFault .ret .stackUnderflow s.sp.val s
  else .next { s with sp := ⟨s.sp.val - 1, by omega⟩, pc := s.stack[s.sp.val - 1] }

/-- 1NNN: jump (rule R43). -/
def execJp (nnn : Imm12) (s : State) : Result := .next (s.jump (zext12 nnn))

/-- 2NNN: push the return address and jump, or fault on a full stack before anything is written (rule R44). -/
def execCall (nnn : Imm12) (s : State) : Result :=
  if h : s.sp.val = 16 then takeFault (.call nnn) .stackOverflow s.sp.val s
  else .next { s with stack := s.stack.set s.sp.val s.pc (by omega), sp := ⟨s.sp.val + 1, by omega⟩, pc := zext12 nnn }

/-- 3XNN: skip if equal to the immediate (rule R45). -/
def execSeImm (x : RegIdx) (nn : Byte) (s : State) : Result := .next (s.skipIf (s.readV x == nn))

/-- 4XNN: skip if not equal to the immediate (rule R46). -/
def execSneImm (x : RegIdx) (nn : Byte) (s : State) : Result := .next (s.skipIf (s.readV x != nn))

/-- 5XY0: skip if the registers are equal (rule R47). -/
def execSeReg (x y : RegIdx) (s : State) : Result := .next (s.skipIf (s.readV x == s.readV y))

/-- 9XY0: skip if the registers differ (rule R48). -/
def execSneReg (x y : RegIdx) (s : State) : Result := .next (s.skipIf (s.readV x != s.readV y))

/-- BNNN: jump to `V[0] + NNN`, always V0, not reduced modulo 4096 (rule R49). -/
def execJpV0 (nnn : Imm12) (s : State) : Result := .next (s.jump (BitVec.ofNat 16 ((s.readV 0).toNat + nnn.toNat)))

end Sys2Proof.Machine
end

