-- ==== Sys2Proof/Machine/Framebuffer.lean ====
section
/-! DEFINITION. The display framebuffer controller: cells, the clear display and the XOR draw with wraparound (rules R13, R69, R70). -/

namespace Sys2Proof.Machine

/-- Cell (x, y) (rule R13). -/
def Display.cell (d : Display) (x : Fin 64) (y : Fin 32) : Bool := d[y][x]

/-- The column of cell number `k = x + 64*y` (rule R13). -/
def cellColumn (k : Fin 2048) : Fin 64 := ⟨k.val % 64, Nat.mod_lt _ (by decide)⟩

/-- The row of cell number `k = x + 64*y` (rule R13). -/
def cellRow (k : Fin 2048) : Fin 32 := ⟨k.val / 64, by omega⟩

/-- `display[k]`, by rule R13's cell number. -/
def Display.cellAt (d : Display) (k : Fin 2048) : Bool := d.cell (cellColumn k) (cellRow k)

/-- Every cell unlit (rules R69, R100). -/
def Display.clear : Display := Vector.replicate 32 (Vector.replicate 64 false)

/-- Invert cell (x, y). -/
def Display.flip (d : Display) (x : Fin 64) (y : Fin 32) : Display :=
  Vector.set d y.val (Vector.set d[y] x.val (!d[y][x]) x.isLt) y.isLt

/-- A column coordinate modulo 64 (rule R70). -/
def wrapX (n : Nat) : Fin 64 := ⟨n % 64, Nat.mod_lt _ (by decide)⟩

/-- A row coordinate modulo 32 (rule R70). -/
def wrapY (n : Nat) : Fin 32 := ⟨n % 32, Nat.mod_lt _ (by decide)⟩

/-- Column `c` of a sprite row; bit 7 is column 0 (rule R70). -/
def spriteBit (b : Byte) (c : Nat) : Bool := b.getLsbD (7 - c)

/-- A draw in progress: the display so far, and whether a lit pixel has been flipped. -/
abbrev Draw := Display × Bool

/-- Flip the pixel at (x, y), wrapped; a pixel that was lit is a collision (rule R70). -/
def drawPixel (x y : Nat) (p : Draw) : Draw :=
  (p.1.flip (wrapX x) (wrapY y), p.2 || p.1.cell (wrapX x) (wrapY y))

/-- One sprite row at (x0, y): columns 0 to 7, drawing those whose bit is 1 (rule R70). -/
def drawRow (x0 y : Nat) (b : Byte) (p : Draw) : Draw :=
  (List.range 8).foldl (fun q c => if spriteBit b c then drawPixel (x0 + c) y q else q) p

/-- The sprite rows from row coordinate `y` down (rule R70). -/
def drawRows (x0 y : Nat) : List Byte → Draw → Draw
  | [], p => p
  | b :: bs, p => drawRows x0 (y + 1) bs (drawRow x0 y b p)

end Sys2Proof.Machine
end

