-- ==== Sys2Proof/Machine/DisplayOps.lean ====
section
/-! DEFINITION. The display instructions 00E0 and DXYN (rules R69 to R71). -/

namespace Sys2Proof.Machine

/-- 00E0: every cell unlit (rule R69). -/
def execCls (s : State) : Result := .next { s with display := Display.clear }

/-- DXYN: read N sprite rows at `I` up, flip the pixels of their 1 bits at (`V[X]`, `V[Y]`), then write the collision
flag to VF; a row out of memory faults and no pixel changes (rules R70, R83). -/
def execDrw (x y : RegIdx) (n : Fin 16) (s : State) : Result :=
  match readBlock s.mem s.dataAddr n.val with
  | .error a => takeFault (.drw x y n) .memoryOutOfRange a s
  | .ok rows =>
    let p := drawRows (s.readV x).toNat (s.readV y).toNat rows (s.display, false)
    .next ({ s with display := p.1 }.writeV vf (flagByte p.2))

end Sys2Proof.Machine
end

