-- ==== Sys2Proof/Machine/IndexMemory.lean ====
section
/-! DEFINITION. The index-register instructions, BCD and block load and store (rules R63 to R68). -/

namespace Sys2Proof.Machine

/-- ANNN: set I (rule R63). -/
def execLdI (nnn : Imm12) (s : State) : Result := .next { s with i := zext12 nnn }

/-- FX1E: add `V[X]` to I, wrapping at 16 bits; VF unchanged (rule R64). -/
def execAddI (x : RegIdx) (s : State) : Result := .next { s with i := BitVec.ofNat 16 (s.i.toNat + (s.readV x).toNat) }

/-- FX29: I gets the address of `V[X]`'s glyph; `V[X]` is not masked (rule R65). -/
def execLdFont (x : RegIdx) (s : State) : Result := .next { s with i := glyphAddr (s.readV x) }

/-- Store bytes from `I` up, or fault on the lowest address out of range with nothing stored (rules R22, R24, R83). -/
def storeAtI (i : Instr) (bs : List Byte) (s : State) : Result :=
  match writeBlock s.mem s.dataAddr bs with
  | .error a => takeFault i .memoryOutOfRange a s
  | .ok m => .next { s with mem := m }

/-- FX33: the decimal digits of `V[X]` at `I`, `I+1`, `I+2` (rule R66). -/
def execBcd (x : RegIdx) (s : State) : Result := storeAtI (.bcd x) (decimalDigits (s.readV x)) s

/-- FX55: `V[0]` to `V[X]` at `I` up; I is unchanged (rule R67). -/
def execStRegs (x : RegIdx) (s : State) : Result := storeAtI (.stRegs x) (s.regBlock x) s

/-- FX65: `V[0]` to `V[X]` from the bytes at `I` up; I is unchanged (rule R68). -/
def execLdRegs (x : RegIdx) (s : State) : Result :=
  match readBlock s.mem s.dataAddr (x.val + 1) with
  | .error a => takeFault (.ldRegs x) .memoryOutOfRange a s
  | .ok bs => .next { s with v := writeRegs s.v 0 bs }

end Sys2Proof.Machine
end

