-- ==== Sys2Proof/Machine/KeysTimers.lean ====
section
/-! DEFINITION. The key tests, the key wait and the timer access instructions (rules R72 to R77). -/

namespace Sys2Proof.Machine

/-- Skip if key `V[X]` is in the given state; a key number of 16 or more faults first (rules R72, R73). -/
def skipOnKey (i : Instr) (x : RegIdx) (held : Bool) (s : State) : Result :=
  if h : (s.readV x).toNat < 16 then .next (s.skipIf (s.keys[(s.readV x).toNat] == held))
  else takeFault i .keyIndexOutOfRange (s.readV x).toNat s

/-- EX9E: skip if key `V[X]` is held (rule R72). -/
def execSkp (x : RegIdx) (s : State) : Result := skipOnKey (.skp x) x true s

/-- EXA1: skip if key `V[X]` is not held (rule R73). -/
def execSknp (x : RegIdx) (s : State) : Result := skipOnKey (.sknp x) x false s

/-- FX07: `V[X]` gets DT (rule R74). -/
def execLdVxDt (x : RegIdx) (s : State) : Result := .next (s.writeV x s.dt)

/-- FX0A: `V[X]` gets the lowest held key; with none held, `pc` goes back so that the next tick runs the same
instruction again (rule R75). -/
def execLdVxKey (x : RegIdx) (s : State) : Result :=
  match firstHeldKey s.keys with
  | some k => .next (s.writeV x (BitVec.ofNat 8 k.val))
  | none => .next s.rewind

/-- FX15: DT gets `V[X]` (rule R76). -/
def execLdDtVx (x : RegIdx) (s : State) : Result := .next { s with dt := s.readV x }

/-- FX18: ST gets `V[X]` (rule R77). -/
def execLdStVx (x : RegIdx) (s : State) : Result := .next { s with st := s.readV x }

end Sys2Proof.Machine
end

