-- ==== Sys2Proof/Machine/Tick.lean ====
section
/-! DEFINITION. One instruction cycle: the fault latch, fetch, decode, execute, in the order of rules R40 and R82. -/

namespace Sys2Proof.Machine

/-- `tick` (rule R40). A latched fault: nothing changes (rule R84). A fault of fetch or decode is latched in the state
before the tick (rules R26, R38, R83). Otherwise the decoded instruction executes with `pc` past its two bytes.
`Err(record)` is the latch being set in the state after the tick (log entry 1). -/
def runTick (s : State) : Result :=
  match s.fault with
  | some _ => .next s
  | none =>
    match fetch s with
    | .error code => .next (s.latch code none s.pc.toNat)
    | .ok op =>
      match decodeWord op with
      | .error _ => .next (s.latch .undefinedOpcode (some op) op.toNat)
      | .ok i => exec i s.advance

/-- `pc` can be fetched from: both checks of rule R26 pass. -/
def State.canFetch (s : State) : Bool := decide (s.pc.toNat + 1 < Config.memSize) && decide (s.pc.toNat % 2 = 0)

/-- Store an opcode where the next tick fetches (rules R25, R26). A latched fault is cleared, and a `pc` that no fetch
accepts is set to the program's start, because in those states no instruction would run at all. -/
def State.placeOpcode (s : State) (op : Word) : State :=
  let pc := if s.canFetch then s.pc else BitVec.ofNat 16 Config.programStart
  { s with
    pc := pc
    fault := none
    mem := (s.mem.write pc.toNat (bytesOfWord op).1).write (pc.toNat + 1) (bytesOfWord op).2 }

end Sys2Proof.Machine
end

