-- ==== Sys2Proof/Machine/Step.lean ====
section
/-! DEFINITION. The machine's step: one `tick` (rules R1, R40). -/

namespace Sys2Proof.Machine

/-- One step of the machine is one `tick` (rules R40, R105). The other host operations are in Machine/HostOps.lean. -/
def step (s : State) : Host.Outcome State Fault Refusal := runTick s

/-- `s` with the opcode `w` (numbered as the opcode table numbers its bits) stored where `step` fetches. -/
def State.withFetchWord (s : State) (nbits w : Nat) : State := s.placeOpcode (tableWord nbits w)

end Sys2Proof.Machine
end

