-- ==== Sys2Proof/Machine/HostOps.lean ====
section
/-! DEFINITION. The host operations beside `tick`: new, reset, load, tick_timers, set_key and get_display, and any sequence of calls (rules R4, R88 to R94, R98 to R102). -/

namespace Sys2Proof.Machine

/-- `reset()` (rule R99): every field of the spec at its reset value. The model's own count of random draws goes on, so
that a draw after a reset is not forced to equal one before it (log entry 5). -/
def State.restart (s : State) : State := { State.reset with draws := s.draws }

/-- Copy bytes into memory from `a` up (rule R101). -/
def Memory.store (m : Memory) (a : Nat) : List Byte → Memory
  | [] => m
  | b :: bs => Memory.store (m.write a b) (a + 1) bs

/-- `load(bytes)` (rule R101): a raw copy from address 512, or an error with no change when there are too many bytes. -/
def State.load (s : State) (bytes : List Byte) : Result :=
  if bytes.length > Config.loadMax then .fault .loadTooLarge
  else .next { s with mem := Memory.store s.mem Config.programStart bytes }

/-- A timer one frame later: one less, but never below 0 (rule R88). -/
def countDown (t : Byte) : Byte := if t.toNat > 0 then t - 1#8 else t

/-- `tick_timers()` (rules R88, R89): the state after, and the beep output. -/
def State.tickTimers (s : State) : State × Bool :=
  ({ s with dt := countDown s.dt, st := countDown s.st }, s.st == 1#8)

/-- `set_key(index, pressed)` (rule R91); the index is below 16 by its type. -/
def State.setKey (s : State) (k : Fin 16) (pressed : Bool) : State := { s with keys := s.keys.set k.val pressed k.isLt }

/-- `get_display()` (rule R92): the 2048 cells in index order. -/
def State.getDisplay (s : State) : List Bool := (s.display.toList.map Vector.toList).flatten

/-- The calls a host can make (rule R4). -/
inductive HostCall where
  | new
  | reset
  | load (bytes : List Byte)
  | tick
  | tickTimers
  | setKey (k : Fin 16) (pressed : Bool)
  | getDisplay
  deriving DecidableEq, Repr

/-- What a call gives back (rules R4, R94). -/
inductive HostAnswer where
  /-- `new`, `reset` and `set_key` give back nothing more than the state. -/
  | done
  /-- `load` or `tick` succeeded. -/
  | ok
  /-- `load` failed with LOAD_TOO_LARGE, code 8. -/
  | loadTooLarge
  /-- `tick` failed with this fault record. -/
  | err (r : FaultRecord)
  /-- The beep output of `tick_timers`. -/
  | beep (b : Bool)
  /-- The cells that `get_display` shows. -/
  | cells (c : List Bool)
  /-- `step` gave no next state. No call gives this answer: `step` always answers a next state. -/
  | stopped
  deriving DecidableEq, Repr

/-- What `tick` gives back, read from the state after it: the latched record, or Ok (rules R40, R84). -/
def tickAnswer (t : State) : HostAnswer :=
  match t.fault with
  | none => .ok
  | some r => .err r

/-- One host call: one atomic transition of the state, and its answer (rules R1, R4, R94). -/
def hostCall (c : HostCall) (s : State) : State × HostAnswer :=
  match c with
  | .new => (s.restart, .done)
  | .reset => (s.restart, .done)
  | .load bytes =>
    match s.load bytes with
    | .next t => (t, .ok)
    | .fault _ => (s, .loadTooLarge)
    | .refused _ => (s, .stopped)
  | .tick =>
    match step s with
    | .next t => (t, tickAnswer t)
    | .fault _ => (s, .stopped)
    | .refused _ => (s, .stopped)
  | .tickTimers => (s.tickTimers.1, .beep s.tickTimers.2)
  | .setKey k pressed => (s.setKey k pressed, .done)
  | .getDisplay => (s, .cells s.getDisplay)

/-- A host's calls one after another, in any order (rule R94): the last state, and the answers in order. -/
def hostCalls : List HostCall → State → State × List HostAnswer
  | [], s => (s, [])
  | c :: cs, s =>
    ((hostCalls cs (hostCall c s).1).1, (hostCall c s).2 :: (hostCalls cs (hostCall c s).1).2)

end Sys2Proof.Machine
end

