-- ==== Sys2Proof/Safety.lean ====
section
/-! DEFINITION. The terms claims are made in: what a running machine is, the invariant every step keeps, the cause of each fault, the parts of the state that a frame names, and the opcode patterns. -/

namespace Sys2Proof

/-- Every opcode whose fixed bits are a row's decodes to the instruction `f` makes of its fields (rules R34, R36). -/
def PatternDecodes (mask pattern : Word) (f : Word → Instr) : Prop :=
  ∀ op : Word, op &&& mask = pattern → decodeWord op = .ok (f op)

/-- How many bytes of memory an instruction reads or writes from `I` up (rule R28). -/
def Instr.dataBytes : Instr → Nat
  | .nop => 0
  | .cls => 0
  | .ret => 0
  | .jp _ => 0
  | .call _ => 0
  | .seImm _ _ => 0
  | .sneImm _ _ => 0
  | .seReg _ _ => 0
  | .ldImm _ _ => 0
  | .addImm _ _ => 0
  | .ldReg _ _ => 0
  | .orReg _ _ => 0
  | .andReg _ _ => 0
  | .xorReg _ _ => 0
  | .addReg _ _ => 0
  | .subReg _ _ => 0
  | .shrReg _ _ => 0
  | .subnReg _ _ => 0
  | .shlReg _ _ => 0
  | .sneReg _ _ => 0
  | .ldI _ => 0
  | .jpV0 _ => 0
  | .rnd _ _ => 0
  | .drw _ _ n => n.val
  | .skp _ => 0
  | .sknp _ => 0
  | .ldVxDt _ => 0
  | .ldVxKey _ => 0
  | .ldDtVx _ => 0
  | .ldStVx _ => 0
  | .addI _ => 0
  | .ldFont _ => 0
  | .bcd _ => 3
  | .stRegs x => x.val + 1
  | .ldRegs x => x.val + 1

namespace Machine

/-- No fault is latched, so the next tick runs an instruction (rule R84). A run that latches a fault is not a safe
run. -/
def State.Running (s : State) : Prop := s.fault = none

/-- `n` bytes from `I` up all exist (rule R22). -/
def State.DataInRange (s : State) (n : Nat) : Prop := n = 0 ∨ s.dataAddr + n ≤ Config.memSize

/-- What latched faults look like: the record's `pc` is still the machine's (rule R83), and it names an opcode unless
the fault was fetch's own (rule R80). -/
def FaultRecord.Agrees (r : FaultRecord) (s : State) : Prop :=
  r.pc = s.pc ∧ (r.opcode = none ↔ r.code = .fetchOutOfRange ∨ r.code = .fetchMisaligned)

/-- The invariant that every step keeps: memory is canonical; `pc` is at most 4350 (rule R7); every stack entry is a
return address, even and at most 4096 (rules R9, R26, R44); a latched record agrees with the state (rules R80, R83). -/
def State.Inv (s : State) : Prop :=
  s.mem.wf ∧ s.pc.toNat ≤ 4350 ∧ (∀ k : Fin 16, s.stack[k].toNat ≤ 4096 ∧ s.stack[k].toNat % 2 = 0) ∧
    ∀ r, s.fault = some r → r.Agrees s

/-- Both of fetch's checks pass (rule R26). -/
def State.Fetchable (s : State) : Prop := s.pc.toNat + 1 < Config.memSize ∧ s.pc.toNat % 2 = 0

/-- The instruction that the next tick executes is `i`. -/
def State.Fetches (s : State) (i : Instr) : Prop := s.Fetchable ∧ decodeWord s.opcodeAt = .ok i

/-- Why a tick from `s` faults with the record `r`: rule R79's conditions, the values it records (rules R79, R80), and
the order of rule R82. -/
def State.FaultCause (s : State) (r : FaultRecord) : Prop :=
  r.pc = s.pc ∧
  match r.code with
  | .fetchOutOfRange => Config.memSize ≤ s.pc.toNat + 1 ∧ r.opcode = none ∧ r.info = s.pc.toNat
  | .fetchMisaligned =>
    s.pc.toNat + 1 < Config.memSize ∧ s.pc.toNat % 2 = 1 ∧ r.opcode = none ∧ r.info = s.pc.toNat
  | .undefinedOpcode =>
    s.Fetchable ∧ isDefined s.opcodeAt = false ∧ r.opcode = some s.opcodeAt ∧ r.info = s.opcodeAt.toNat
  | .stackOverflow => ∃ nnn, s.Fetches (.call nnn) ∧ s.sp.val = 16 ∧ r.opcode = some s.opcodeAt ∧ r.info = 16
  | .stackUnderflow => s.Fetches .ret ∧ s.sp.val = 0 ∧ r.opcode = some s.opcodeAt ∧ r.info = 0
  | .memoryOutOfRange =>
    ∃ i, s.Fetches i ∧ ¬ s.DataInRange i.dataBytes ∧ r.opcode = some s.opcodeAt ∧
      r.info = max s.i.toNat Config.memSize
  | .keyIndexOutOfRange =>
    ∃ x, (s.Fetches (.skp x) ∨ s.Fetches (.sknp x)) ∧ 16 ≤ (s.readV x).toNat ∧ r.opcode = some s.opcodeAt ∧
      r.info = (s.readV x).toNat

/-- The parts of the state that a frame speaks about, each as a program or the host sees it: one register, one stack
entry, one key, one cell, one byte of memory. -/
inductive Part where
  | v (x : RegIdx)
  | pc
  | i
  | stack (k : Fin 16)
  | sp
  | dt
  | st
  | key (k : Fin 16)
  | cell (k : Fin 2048)
  | byte (a : Nat)
  | fault
  | draws
  deriving DecidableEq, Repr

/-- A part is the same in two states. -/
def Part.Same (s t : State) : Part → Prop
  | .v x => t.readV x = s.readV x
  | .pc => t.pc = s.pc
  | .i => t.i = s.i
  | .stack k => t.stack[k] = s.stack[k]
  | .sp => t.sp = s.sp
  | .dt => t.dt = s.dt
  | .st => t.st = s.st
  | .key k => t.keys[k] = s.keys[k]
  | .cell k => t.display.cellAt k = s.display.cellAt k
  | .byte a => t.mem.read a = s.mem.read a
  | .fault => t.fault = s.fault
  | .draws => t.draws = s.draws

/-- The pixel at (px, py) is under a 1 bit of the sprite drawn at (x0, y0) (rule R70): some row r and column c of the
sprite are there, modulo the display's size, and the row's bit 7 - c is 1. -/
def Covers (x0 y0 : Nat) (rows : List Byte) (px : Fin 64) (py : Fin 32) : Prop :=
  ∃ r c, ∃ h : r < rows.length, c < 8 ∧ (x0 + c) % 64 = px.val ∧ (y0 + r) % 32 = py.val ∧ rows[r].getLsbD (7 - c) = true

/-- Instruction `i` completes in state `s` (the state after fetch), and what it leaves meets `P`: exec answers a next
state, for which `P` holds. -/
def Completes (i : Instr) (s : State) (P : State → Prop) : Prop := ∃ t, exec i s = .next t ∧ P t

/-- Instruction `i` has taken a fault for the reason `code`, and that is all it did: `pc` is back at the instruction, and the
latch holds the record (rules R80, R83, R84). -/
def TakesFault (i : Instr) (code : FaultCode) (s t : State) : Prop := ∃ info, takeFault i code info s = .next t

/-- In every state with memory `m` whose `pc` fetch accepts, the opcode fetched holds the byte `b` at address `a`: as its high
byte when `pc` is `a`, as its low byte when `pc` is one below (rules R25, R26). -/
def FetchSees (m : Memory) (a b : Nat) : Prop :=
  ∀ u : State, u.mem = m → u.Fetchable →
    ∃ op, fetch u = .ok op ∧ (u.pc.toNat = a → op.toNat / 256 = b) ∧ (u.pc.toNat + 1 = a → op.toNat % 256 = b)

/-- The `n` bytes from `I` up: the sprite rows that DXYN reads, or the block that FX65 reads (rules R28, R68, R70). -/
def State.bytesAtI (s : State) (n : Nat) : List Byte := (List.range n).map (fun r => s.mem.read (s.dataAddr + r))

/-- Cell number `k` is under a 1 bit of the sprite that `DXYN` draws from state `s` (rules R13, R70). -/
def State.SpriteCovers (s : State) (x y : RegIdx) (n : Fin 16) (k : Fin 2048) : Prop :=
  Covers (s.readV x).toNat (s.readV y).toNat (s.bytesAtI n.val) (cellColumn k) (cellRow k)

end Machine

end Sys2Proof
end

