-- ==== Sys2Proof/Certificates/Slice0/Obligations.lean ====
section
/-! DEFINITION. The statements for the provers. Each is a proposition about the model, drawn from the spec's numbered rules. `exec` runs on the state after fetch, so its `pc` is the instruction's address plus 2 (rule R40). -/

open Sys2Proof Sys2Proof.Machine

/-! ### Encoding -/

/-- Words written out from the encodings of rules R34 and R36 decode to the instructions they stand for, one or more of
each family; undefined words and a single byte are refused by name. -/
def Obligations.SpecWordsDecode : Prop :=
  decodeBytes [0x12#8, 0x34#8] = .ok (.jp 0x234#12, []) ∧
  decodeBytes [0x00#8, 0xEE#8] = .ok (.ret, []) ∧
  decodeBytes [0x33#8, 0x42#8] = .ok (.seImm 3 0x42#8, []) ∧
  decodeBytes [0x81#8, 0x24#8] = .ok (.addReg 1 2, []) ∧
  decodeBytes [0xA3#8, 0x00#8] = .ok (.ldI 0x300#12, []) ∧
  decodeBytes [0xD0#8, 0x12#8, 0x12#8, 0x0A#8] = .ok (.drw 0 1 2, [0x12#8, 0x0A#8]) ∧
  decodeBytes [0xE5#8, 0x9E#8] = .ok (.skp 5, []) ∧
  decodeBytes [0xFA#8, 0x33#8] = .ok (.bcd 10, []) ∧
  decodeBytes [0x51#8, 0x21#8] = .error (.undefinedOpcode 0x5121#16) ∧
  decodeBytes [0x12#8] = .error .truncated

/-- Decode and encode agree, for every instruction and every operand: decoding an instruction's opcode, or its bytes with
any bytes after them, gives the instruction back (rules R33, R34, R36). -/
def Obligations.DecodeOfEncodeIsIdentity : Prop :=
  ∀ (i : Instr) (rest : List Byte),
    decodeWord (encode i) = .ok i ∧ decodeBytes (encodeBytes i ++ rest) = .ok (i, rest)

/-- The other direction: an opcode that decodes is the opcode of the instruction it decodes to, so decoding drops no
bit. -/
def Obligations.EncodeOfDecodeIsIdentity : Prop :=
  ∀ (op : Word) (i : Instr), decodeWord op = .ok i → encode i = op

/-- The decoder and the opcode table agree (rules R36, R38): an opcode decodes exactly when a row of the table matches
it, then to an instruction of a row that matches it, and otherwise it is refused by name. -/
def Obligations.DecoderAgreesWithOpcodeTable : Prop :=
  ∀ op : Word,
    (isDefined op = true ↔ ∃ i, decodeWord op = .ok i) ∧
    (∀ i, decodeWord op = .ok i → i.row ∈ opcodeTable ∧ i.row.selectedBy op = true) ∧
    (isDefined op = false → decodeWord op = .error (.undefinedOpcode op))

/-- No opcode matches two rows of the table. Rule R36 marks this sentence as derived. -/
def Obligations.NoOpcodeMatchesTwoRows : Prop :=
  ∀ op : Word, (opcodeTable.filter (fun r => r.selectedBy op)).length ≤ 1

/-! ### The instruction cycle and faults -/

/-- The opcode fetched is big-endian (rule R25): the byte at `pc` is the high byte and the byte at `pc + 1` the low one. A
data access moves one byte, so it has no byte order: a write reaches the byte at its own address and no other. -/
def Obligations.OpcodeIsBigEndian : Prop :=
  (∀ s : State,
    s.opcodeAt.toNat = (s.mem.read s.pc.toNat).toNat * 256 + (s.mem.read (s.pc.toNat + 1)).toNat) ∧
  ∀ (m m' : Memory) (a : Nat) (v : Byte), memWrite m a v = .ok m' →
    ∀ b, m'.read b = if b = a then v else m.read b

/-- A step runs the decoded instruction (rules R26, R40): with no fault latched and a fetchable `pc`, if the two bytes at
`pc` decode to `i`, the step is `exec i` on the state whose `pc` is past them. -/
def Obligations.StepRunsDecodedInstruction : Prop :=
  ∀ (s : State) (i : Instr), s.fault = none → s.pc.toNat + 1 < 4096 → s.pc.toNat % 2 = 0 →
    decodeBytes [s.mem.read s.pc.toNat, s.mem.read (s.pc.toNat + 1)] = .ok (i, []) →
    step s = exec i { s with pc := s.pc + 2#16 }

/-- Fetch's two faults (rule R26), out of range first (rule R82). The alignment fault, the order and the record rest on
the spec's own decisions D3, D4 and D5. -/
def Obligations.FetchFaultsAreLatched : Prop :=
  ∀ s : State, s.fault = none →
    (4096 ≤ s.pc.toNat + 1 →
      step s = .next { s with fault := some ⟨.fetchOutOfRange, s.pc, none, s.pc.toNat⟩ }) ∧
    (s.pc.toNat + 1 < 4096 → s.pc.toNat % 2 = 1 →
      step s = .next { s with fault := some ⟨.fetchMisaligned, s.pc, none, s.pc.toNat⟩ })

/-- An opcode that no row of the table matches is latched as UNDEFINED_OPCODE, with `pc` still at it (rules R38, R83);
the record rests on the spec's own decisions D1 to D3. -/
def Obligations.UndefinedOpcodeIsLatched : Prop :=
  ∀ s : State, s.fault = none → s.Fetchable → isDefined s.opcodeAt = false →
    step s = .next { s with fault := some ⟨.undefinedOpcode, s.pc, some s.opcodeAt, s.opcodeAt.toNat⟩ }

/-- The latch halts the machine (rule R84, the spec's own decision D2): any number of further ticks changes nothing,
and each answers the latched record. -/
def Obligations.LatchedMachineStaysHalted : Prop :=
  ∀ (s : State) (r : FaultRecord), s.fault = some r →
    (∀ n, Host.Core.run Sys2Proof.core n s = .next s) ∧ hostCall .tick s = (s, .err r)

/-- Faults are precise (rule R83, the spec's own decision D1): a tick that faults leaves every field but `fault` as it
was, names the faulting instruction's address, and answers the record. -/
def Obligations.FaultingTickIsPrecise : Prop :=
  ∀ (s t : State) (r : FaultRecord), s.fault = none → step s = .next t → t.fault = some r →
    t = { s with fault := some r } ∧ r.pc = s.pc ∧ (hostCall .tick s).2 = .err r

/-- A tick faults exactly for the reasons of rule R79, with the values it records, in the order of rule R82; when none of
them holds, the tick answers Ok (rule R81). Records and order rest on the spec's own decisions D3 and D5. -/
def Obligations.TickFaultsExactlyForListedCauses : Prop :=
  ∀ s : State, s.fault = none →
    (∀ r, step s = .next { s with fault := some r } ↔ s.FaultCause r) ∧
    ((¬ ∃ r, s.FaultCause r) → ∃ t, step s = .next t ∧ t.fault = none)

/-- Every instruction and every step answers a next state, in every state: the model stops on nothing. A fault of the
spec is a next state with the latch set; that form is the model's choice (log entry 1). -/
def Obligations.EveryStepAnswersANextState : Prop :=
  (∀ (i : Instr) (s : State), ∃ t, exec i s = .next t) ∧ ∀ s : State, ∃ t, step s = .next t

/-! ### Control flow -/

/-- 0000 does nothing; `pc` keeps the value fetch gave it (rule R41). -/
def Obligations.NopDoesNothing : Prop :=
  PatternDecodes 0xFFFF#16 0x0000#16 (fun _ => .nop) ∧ ∀ s : State, exec .nop s = .next s

/-- 1NNN: `pc <- zext_16(NNN)` (rule R43). -/
def Obligations.JumpSetsPc : Prop :=
  PatternDecodes 0xF000#16 0x1000#16 (fun op => .jp (fieldNNN op)) ∧
  ∀ (nnn : Imm12) (s : State), Completes (.jp nnn) s fun t => t.pc.toNat = nnn.toNat ∧ t.fault = s.fault

/-- The four skips add 2 to `pc` exactly when their comparison holds (rules R45 to R48). -/
def Obligations.SkipsTestTheirOperands : Prop :=
  PatternDecodes 0xF000#16 0x3000#16 (fun op => .seImm (fieldX op) (fieldNN op)) ∧
  PatternDecodes 0xF000#16 0x4000#16 (fun op => .sneImm (fieldX op) (fieldNN op)) ∧
  PatternDecodes 0xF00F#16 0x5000#16 (fun op => .seReg (fieldX op) (fieldY op)) ∧
  PatternDecodes 0xF00F#16 0x9000#16 (fun op => .sneReg (fieldX op) (fieldY op)) ∧
  ∀ (x y : RegIdx) (nn : Byte) (s : State),
    (Completes (.seImm x nn) s fun t =>
      t.fault = s.fault ∧ t.pc = if s.readV x = nn then s.pc + 2#16 else s.pc) ∧
    (Completes (.sneImm x nn) s fun t =>
      t.fault = s.fault ∧ t.pc = if s.readV x = nn then s.pc else s.pc + 2#16) ∧
    (Completes (.seReg x y) s fun t =>
      t.fault = s.fault ∧ t.pc = if s.readV x = s.readV y then s.pc + 2#16 else s.pc) ∧
    (Completes (.sneReg x y) s fun t =>
      t.fault = s.fault ∧ t.pc = if s.readV x = s.readV y then s.pc else s.pc + 2#16)

/-- BNNN: `pc <- V[0] + NNN`, always V0, exact and not reduced modulo 4096 (rule R49). -/
def Obligations.ComputedJumpAddsV0 : Prop :=
  PatternDecodes 0xF000#16 0xB000#16 (fun op => .jpV0 (fieldNNN op)) ∧
  ∀ (nnn : Imm12) (s : State), Completes (.jpV0 nnn) s fun t =>
    t.pc.toNat = (s.readV 0).toNat + nnn.toNat ∧ t.pc.toNat ≤ 4350 ∧ t.fault = s.fault

/-- 00EE pops the newest entry into `pc` and leaves it in the stack; an empty stack faults with nothing popped (rule R42).
The stale entry and the record rest on the spec's own decisions D1 to D3 and D12. -/
def Obligations.ReturnPopsOrUnderflows : Prop :=
  PatternDecodes 0xFFFF#16 0x00EE#16 (fun _ => .ret) ∧
  ∀ s : State,
    (∀ k : Fin 16, s.sp.val = k.val + 1 →
      Completes .ret s fun t => t.sp.val = k.val ∧ t.pc = s.stack[k] ∧ t.stack = s.stack) ∧
    (s.sp.val = 0 →
      exec .ret s =
        .next { s with pc := s.pc - 2#16, fault := some ⟨.stackUnderflow, s.pc - 2#16, some 0x00EE#16, 0⟩ })

/-- 2NNN pushes the `pc` after fetch and jumps; a full stack faults with nothing written (rule R44). The record rests on
the spec's own decisions D1 to D3. -/
def Obligations.CallPushesOrOverflows : Prop :=
  PatternDecodes 0xF000#16 0x2000#16 (fun op => .call (fieldNNN op)) ∧
  ∀ (nnn : Imm12) (s : State),
    (∀ k : Fin 16, s.sp.val = k.val →
      Completes (.call nnn) s fun t =>
        t.stack[k] = s.pc ∧ (∀ j : Fin 16, j ≠ k → t.stack[j] = s.stack[j]) ∧ t.sp.val = k.val + 1 ∧
          t.pc.toNat = nnn.toNat) ∧
    (s.sp.val = 16 →
      exec (.call nnn) s =
        .next { s with
          pc := s.pc - 2#16, fault := some ⟨.stackOverflow, s.pc - 2#16, some (encode (.call nnn)), 16⟩ })

/-- A call and its matching return (rule R44): whatever ran in between, if the stack and the stack pointer are as the call
left them, the return resumes after the call with the stack pointer as before it. -/
def Obligations.CallThenReturnResumesAfterCall : Prop :=
  ∀ (nnn : Imm12) (s : State), s.sp.val < 16 →
    Completes (.call nnn) s fun t =>
      ∀ u : State, u.stack = t.stack → u.sp = t.sp → Completes .ret u fun w => w.pc = s.pc ∧ w.sp = s.sp

/-- The frame of the control-flow family: no-op, jumps and skips write `pc` alone; a return writes `pc` and `sp`; a call writes
`pc`, `sp` and the stack entry at `sp`; on an empty or full stack each of the two writes `pc` and the latch alone. The frame
rests on the spec's own decision D8, and the last part on D1. -/
def Obligations.ControlFlowFrame : Prop :=
  ∀ (nnn : Imm12) (x y : RegIdx) (nn : Byte) (s t : State) (p : Part), p ≠ .pc →
    (∀ i ∈ [Instr.nop, .jp nnn, .seImm x nn, .sneImm x nn, .seReg x y, .sneReg x y, .jpV0 nnn],
      exec i s = .next t → p.Same s t) ∧
    (s.sp.val ≠ 0 → exec .ret s = .next t → p ≠ .sp → p.Same s t) ∧
    (s.sp.val = 0 → exec .ret s = .next t → p ≠ .fault → p.Same s t) ∧
    (s.sp.val ≠ 16 → exec (.call nnn) s = .next t → p ≠ .sp →
      (∀ k : Fin 16, p = .stack k → s.sp.val ≠ k.val) → p.Same s t) ∧
    (s.sp.val = 16 → exec (.call nnn) s = .next t → p ≠ .fault → p.Same s t)

/-! ### Register loads and ALU -/

/-- The results of 6XNN, 8XY0, 8XY1, 8XY2 and 8XY3 (rules R51, R53 to R56); VF changes only as register X. -/
def Obligations.LoadAndLogicResults : Prop :=
  PatternDecodes 0xF000#16 0x6000#16 (fun op => .ldImm (fieldX op) (fieldNN op)) ∧
  PatternDecodes 0xF00F#16 0x8000#16 (fun op => .ldReg (fieldX op) (fieldY op)) ∧
  PatternDecodes 0xF00F#16 0x8001#16 (fun op => .orReg (fieldX op) (fieldY op)) ∧
  PatternDecodes 0xF00F#16 0x8002#16 (fun op => .andReg (fieldX op) (fieldY op)) ∧
  PatternDecodes 0xF00F#16 0x8003#16 (fun op => .xorReg (fieldX op) (fieldY op)) ∧
  ∀ (x y : RegIdx) (nn : Byte) (s : State),
    (Completes (.ldImm x nn) s fun t =>
      t.readV x = nn ∧ (x ≠ vf → t.readV vf = s.readV vf) ∧ t.fault = s.fault) ∧
    (Completes (.ldReg x y) s fun t =>
      t.readV x = s.readV y ∧ (x ≠ vf → t.readV vf = s.readV vf) ∧ t.fault = s.fault) ∧
    (Completes (.orReg x y) s fun t =>
      t.readV x = s.readV x ||| s.readV y ∧ (x ≠ vf → t.readV vf = s.readV vf) ∧ t.fault = s.fault) ∧
    (Completes (.andReg x y) s fun t =>
      t.readV x = s.readV x &&& s.readV y ∧ (x ≠ vf → t.readV vf = s.readV vf) ∧ t.fault = s.fault) ∧
    (Completes (.xorReg x y) s fun t =>
      t.readV x = s.readV x ^^^ s.readV y ∧ (x ≠ vf → t.readV vf = s.readV vf) ∧ t.fault = s.fault)

/-- 7XNN: `V[X] <- wrap8(vx + NN)`, with no flag even on overflow (rule R52). -/
def Obligations.AddImmediateWrapsWithoutFlag : Prop :=
  PatternDecodes 0xF000#16 0x7000#16 (fun op => .addImm (fieldX op) (fieldNN op)) ∧
  ∀ (x : RegIdx) (nn : Byte) (s : State), Completes (.addImm x nn) s fun t =>
    (t.readV x).toNat = ((s.readV x).toNat + nn.toNat) % 256 ∧ (x ≠ vf → t.readV vf = s.readV vf) ∧ t.fault = s.fault

/-- 8XY4: `V[X]` is the wrapped sum and VF is 1 exactly when the exact sum passes 255; with X = 15 VF holds the flag; Y = 15
adds the old VF (rule R57). -/
def Obligations.AddSetsCarry : Prop :=
  PatternDecodes 0xF00F#16 0x8004#16 (fun op => .addReg (fieldX op) (fieldY op)) ∧
  ∀ (x y : RegIdx) (s : State), Completes (.addReg x y) s fun t =>
    (x ≠ vf → (t.readV x).toNat = ((s.readV x).toNat + (s.readV y).toNat) % 256) ∧
    t.readV vf = (if (s.readV x).toNat + (s.readV y).toNat > 255 then 1#8 else 0#8) ∧ t.fault = s.fault

/-- 8XY5 and 8XY7: the wrapped difference, and VF 0 exactly on a borrow (rules R58, R60). The borrow condition on equality is
one the spec derives itself (N13). -/
def Obligations.SubtractsSetNotBorrow : Prop :=
  PatternDecodes 0xF00F#16 0x8005#16 (fun op => .subReg (fieldX op) (fieldY op)) ∧
  PatternDecodes 0xF00F#16 0x8007#16 (fun op => .subnReg (fieldX op) (fieldY op)) ∧
  ∀ (x y : RegIdx) (s : State),
    (Completes (.subReg x y) s fun t =>
      (x ≠ vf → (t.readV x).toNat = ((s.readV x).toNat + 256 - (s.readV y).toNat) % 256) ∧
      t.readV vf = (if (s.readV x).toNat < (s.readV y).toNat then 0#8 else 1#8) ∧ t.fault = s.fault) ∧
    (Completes (.subnReg x y) s fun t =>
      (x ≠ vf → (t.readV x).toNat = ((s.readV y).toNat + 256 - (s.readV x).toNat) % 256) ∧
      t.readV vf = (if (s.readV y).toNat < (s.readV x).toNat then 0#8 else 1#8) ∧ t.fault = s.fault)

/-- 8XY6 and 8XYE shift VX by one and put the bit shifted out in VF; Y is ignored, so any Y does the same (rules R37, R59,
R61). With X = 15 VF holds the flag: the spec's own decision D7 and conflict C6. -/
def Obligations.ShiftsPutDroppedBitInVf : Prop :=
  PatternDecodes 0xF00F#16 0x8006#16 (fun op => .shrReg (fieldX op) (fieldY op)) ∧
  PatternDecodes 0xF00F#16 0x800E#16 (fun op => .shlReg (fieldX op) (fieldY op)) ∧
  ∀ (x y z : RegIdx) (s : State),
    exec (.shrReg x y) s = exec (.shrReg x z) s ∧ exec (.shlReg x y) s = exec (.shlReg x z) s ∧
    (Completes (.shrReg x y) s fun t =>
      (x ≠ vf → (t.readV x).toNat = (s.readV x).toNat / 2) ∧
      (t.readV vf).toNat = (s.readV x).toNat % 2 ∧ t.fault = s.fault) ∧
    (Completes (.shlReg x y) s fun t =>
      (x ≠ vf → (t.readV x).toNat = 2 * (s.readV x).toNat % 256) ∧
      (t.readV vf).toNat = (s.readV x).toNat / 128 ∧ t.fault = s.fault)

/-- CXNN: `V[X]` is the drawn byte AND NN, whatever byte is drawn; a bit of the result outside NN is 0; the next draw is
another free byte (rules R62, R93). The free value's form is the model's choice (log entry 4). -/
def Obligations.RandomIsMaskedDraw : Prop :=
  PatternDecodes 0xF000#16 0xC000#16 (fun op => .rnd (fieldX op) (fieldNN op)) ∧
  ∀ (x : RegIdx) (nn : Byte) (s : State), Completes (.rnd x nn) s fun t =>
    t.readV x = Config.randomByte s.draws &&& nn ∧
    (∀ b : Nat, nn.getLsbD b = false → (t.readV x).getLsbD b = false) ∧ t.draws = s.draws + 1 ∧ t.fault = s.fault

/-- The frame of the register family: only `V[X]` changes, and VF for the five that set the flag, and the count of draws
for CXNN; `pc` stays where fetch put it. The frame rests on the spec's own decision D8. -/
def Obligations.RegisterFamilyFrame : Prop :=
  ∀ (x y : RegIdx) (nn : Byte) (s t : State) (p : Part),
    (∀ i ∈ [Instr.ldImm x nn, .addImm x nn, .ldReg x y, .orReg x y, .andReg x y, .xorReg x y],
      exec i s = .next t → p ≠ .v x → p.Same s t) ∧
    (∀ i ∈ [Instr.addReg x y, .subReg x y, .shrReg x y, .subnReg x y, .shlReg x y],
      exec i s = .next t → p ≠ .v x → p ≠ .v vf → p.Same s t) ∧
    (exec (.rnd x nn) s = .next t → p ≠ .v x → p ≠ .draws → p.Same s t)

/-! ### Index register and memory -/

/-- ANNN, FX1E and FX29 (rules R63, R64, R65): I gets NNN; I plus `V[X]` modulo 65536 with VF unchanged; five times `V[X]`,
not masked. That FX1E leaves VF rests on the spec's own decision D8, by rule R64's own words (log entry 11). -/
def Obligations.IndexRegisterResults : Prop :=
  PatternDecodes 0xF000#16 0xA000#16 (fun op => .ldI (fieldNNN op)) ∧
  PatternDecodes 0xF0FF#16 0xF01E#16 (fun op => .addI (fieldX op)) ∧
  PatternDecodes 0xF0FF#16 0xF029#16 (fun op => .ldFont (fieldX op)) ∧
  ∀ (nnn : Imm12) (x : RegIdx) (s : State),
    (Completes (.ldI nnn) s fun t => t.i.toNat = nnn.toNat ∧ t.readV vf = s.readV vf ∧ t.fault = s.fault) ∧
    (Completes (.addI x) s fun t =>
      t.i.toNat = (s.i.toNat + (s.readV x).toNat) % 65536 ∧ t.readV vf = s.readV vf ∧ t.fault = s.fault) ∧
    (Completes (.ldFont x) s fun t =>
      t.i.toNat = (s.readV x).toNat * 5 ∧ t.readV vf = s.readV vf ∧ t.fault = s.fault)

/-- The frame of ANNN, FX1E and FX29: I alone changes. The frame rests on the spec's own decision D8. -/
def Obligations.IndexRegisterFrame : Prop :=
  ∀ (nnn : Imm12) (x : RegIdx) (s t : State) (p : Part),
    ∀ i ∈ [Instr.ldI nnn, .addI x, .ldFont x], exec i s = .next t → p ≠ .i → p.Same s t

/-- FX33 stores the decimal digits of `V[X]` at I, I+1 and I+2 when all three exist, and leaves I (rule R66). That I is left
rests on the spec's own decision D8. -/
def Obligations.BcdStoresDecimalDigits : Prop :=
  PatternDecodes 0xF0FF#16 0xF033#16 (fun op => .bcd (fieldX op)) ∧
  ∀ (x : RegIdx) (s : State), s.i.toNat + 2 < 4096 → Completes (.bcd x) s fun t =>
    100 * (t.mem.read s.i.toNat).toNat + 10 * (t.mem.read (s.i.toNat + 1)).toNat +
        (t.mem.read (s.i.toNat + 2)).toNat = (s.readV x).toNat ∧
    (t.mem.read (s.i.toNat + 1)).toNat ≤ 9 ∧ (t.mem.read (s.i.toNat + 2)).toNat ≤ 9 ∧ t.i = s.i

/-- FX55 stores V0 to VX, inclusive, from I up when all the bytes exist, and leaves I (rule R67). That I is left rests on the
spec's own decision D8. -/
def Obligations.StoreRegistersWritesBlock : Prop :=
  PatternDecodes 0xF0FF#16 0xF055#16 (fun op => .stRegs (fieldX op)) ∧
  ∀ (x : RegIdx) (s : State), s.i.toNat + x.val < 4096 → Completes (.stRegs x) s fun t =>
    (∀ k : Fin 16, k.val ≤ x.val → t.mem.read (s.i.toNat + k.val) = s.readV k) ∧ t.i = s.i

/-- FX65 loads V0 to VX, inclusive, from I up when all the bytes exist, and leaves I (rule R68). That I is left rests on the
spec's own decision D8. -/
def Obligations.LoadRegistersReadsBlock : Prop :=
  PatternDecodes 0xF0FF#16 0xF065#16 (fun op => .ldRegs (fieldX op)) ∧
  ∀ (x : RegIdx) (s : State), s.i.toNat + x.val < 4096 → Completes (.ldRegs x) s fun t =>
    (∀ k : Fin 16, k.val ≤ x.val → t.readV k = s.mem.read (s.i.toNat + k.val)) ∧ t.i = s.i

/-- A data access that does not fit in memory faults, reports the lowest address out of range, and writes nothing (rules R22,
R82, R83). The exact sum, the order and the record rest on the spec's own decisions D1 to D3, D5 and D6. -/
def Obligations.DataOutOfRangeFaultsPrecisely : Prop :=
  ∀ (x y : RegIdx) (n : Fin 16) (s : State),
    ∀ i ∈ [Instr.bcd x, .stRegs x, .ldRegs x, .drw x y n],
      0 < i.dataBytes → 4096 < s.i.toNat + i.dataBytes →
      exec i s =
        .next { s with
          pc := s.pc - 2#16
          fault := some ⟨.memoryOutOfRange, s.pc - 2#16, some (encode i), max s.i.toNat 4096⟩ }

/-- FX55 then FX65 with the same I and memory restores V0 to VX (rules R67, R68). -/
def Obligations.StoreThenLoadRestoresRegisters : Prop :=
  ∀ (x : RegIdx) (s : State), s.i.toNat + x.val < 4096 →
    Completes (.stRegs x) s fun t =>
      ∀ u : State, u.i = t.i → u.mem = t.mem →
        Completes (.ldRegs x) u fun w => ∀ k : Fin 16, k.val ≤ x.val → w.readV k = s.readV k

/-- The frame of FX33, FX55 and FX65. When their bytes all exist, a store changes only the bytes it stores, which start at the
address the meaning computes, and a load changes only V0 to VX: `pc` stays where fetch put it, and no fault is latched. When
they do not, only `pc` and the latch change. The frame rests on the spec's own decision D8, and the last part on D1. -/
def Obligations.BlockAccessFrame : Prop :=
  ∀ (x : RegIdx) (s t : State) (p : Part),
    (s.DataInRange 3 → exec (.bcd x) s = .next t → (∀ k < 3, p ≠ .byte (s.dataAddr + k)) → p.Same s t) ∧
    (s.DataInRange (x.val + 1) → exec (.stRegs x) s = .next t →
      (∀ k ≤ x.val, p ≠ .byte (s.dataAddr + k)) → p.Same s t) ∧
    (s.DataInRange (x.val + 1) → exec (.ldRegs x) s = .next t →
      (∀ k : Fin 16, k.val ≤ x.val → p ≠ .v k) → p.Same s t) ∧
    (∀ i ∈ [Instr.bcd x, .stRegs x, .ldRegs x], ¬ s.DataInRange i.dataBytes →
      exec i s = .next t → p ≠ .pc → p ≠ .fault → p.Same s t)

/-- Self-modifying code (rule R31, the spec's own decision D24): each byte that FX33, FX55 or `load` stores is in the opcode of
the next fetch that covers its address, as the high byte when `pc` is that address and as the low byte when `pc` is one below.
It is said of every `pc` that fetch accepts. -/
def Obligations.StoredBytesAreFetched : Prop :=
  ∀ s : State,
    (∀ x : RegIdx, s.DataInRange 3 → Completes (.bcd x) s fun t =>
      FetchSees t.mem s.dataAddr ((s.readV x).toNat / 100) ∧
      FetchSees t.mem (s.dataAddr + 1) ((s.readV x).toNat / 10 % 10) ∧
      FetchSees t.mem (s.dataAddr + 2) ((s.readV x).toNat % 10)) ∧
    (∀ x : RegIdx, s.DataInRange (x.val + 1) → Completes (.stRegs x) s fun t =>
      ∀ k : Fin 16, k.val ≤ x.val → FetchSees t.mem (s.dataAddr + k.val) (s.readV k).toNat) ∧
    (∀ bytes : List Byte, bytes.length ≤ 3584 → ∃ t, hostCall (.load bytes) s = (t, .ok) ∧
      ∀ k, ∀ h : k < bytes.length, FetchSees t.mem (512 + k) bytes[k].toNat)

/-! ### Display -/

/-- 00E0 clears all 2048 cells, and nothing else changes: no register, `pc`, I, stack, timer, key, byte of memory or latch (rule
R69). -/
def Obligations.ClearUnlightsEveryCell : Prop :=
  PatternDecodes 0xFFFF#16 0x00E0#16 (fun _ => .cls) ∧
  ∀ s : State, Completes .cls s fun t =>
    (∀ k : Fin 2048, t.display.cellAt k = false) ∧ ∀ p : Part, (∀ k, p ≠ .cell k) → p.Same s t

/-- DXYN with its rows in memory (rule R70): exactly the cells under a 1 bit of the sprite, wrapped, are inverted, and VF is 1
exactly when one of them was lit, 0 otherwise. With N = 0 nothing is read or drawn, whatever I is. -/
def Obligations.DrawFlipsExactlyCoveredCells : Prop :=
  PatternDecodes 0xF000#16 0xD000#16 (fun op => .drw (fieldX op) (fieldY op) (fieldN op)) ∧
  ∀ (x y : RegIdx) (n : Fin 16) (s : State), n.val = 0 ∨ s.i.toNat + n.val ≤ 4096 →
    Completes (.drw x y n) s fun t =>
      (∀ k, s.SpriteCovers x y n k → t.display.cellAt k = !s.display.cellAt k) ∧
      (∀ k, ¬ s.SpriteCovers x y n k → t.display.cellAt k = s.display.cellAt k) ∧
      ((∃ k, s.SpriteCovers x y n k ∧ s.display.cellAt k = true) → t.readV vf = 1#8) ∧
      ((¬ ∃ k, s.SpriteCovers x y n k ∧ s.display.cellAt k = true) → t.readV vf = 0#8)

/-- Drawing the same sprite twice, at the same place with the same memory and I, restores the display (rule R71, which marks
this as derived). The last clause is the model's reading and not R71's own last sentence: by rule R70 the second draw collides
exactly when the first lit some pixel (log entry 8, DEDUCED). -/
def Obligations.DrawTwiceRestoresDisplay : Prop :=
  ∀ (x y : RegIdx) (n : Fin 16) (s : State), n.val = 0 ∨ s.i.toNat + n.val ≤ 4096 →
    Completes (.drw x y n) s fun t =>
      ∀ u : State, u.display = t.display → u.mem = s.mem → u.i = s.i → u.readV x = s.readV x → u.readV y = s.readV y →
        Completes (.drw x y n) u fun w =>
          w.display = s.display ∧
          (w.readV vf = 1#8 ↔ ∃ k, s.SpriteCovers x y n k ∧ s.display.cellAt k = false)

/-- The last sentence of rule R71, taken for every display: whenever the sprite has a set bit, the second of two equal
draws reports VF = 1. Expected to FAIL: a set bit over a lit pixel unlights it in the first draw and lights it again,
without a collision, in the second (log entry 8). Where the first draw lights its pixels, as in the spec's vector W5, the
sentence holds: Obligations.SpriteNeverOverlapsItself. -/
def Obligations.SecondDrawAlwaysCollides : Prop :=
  ∀ (x y : RegIdx) (n : Fin 16) (s : State), n.val = 0 ∨ s.i.toNat + n.val ≤ 4096 →
    (∃ r, r < n.val ∧ s.mem.read (s.i.toNat + r) ≠ 0#8) →
    Completes (.drw x y n) s fun t =>
      ∀ u : State, u.display = t.display → u.mem = s.mem → u.i = s.i → u.readV x = s.readV x → u.readV y = s.readV y →
        Completes (.drw x y n) u fun w => w.readV vf = 1#8

/-- The frame of the display family: 00E0 changes cells alone. When its rows all exist, or N is 0, DXYN changes the cells the
sprite covers and VF alone: `pc` stays where fetch put it, and no fault is latched. When they do not, only `pc` and the latch
change, no cell and not VF. The frame rests on the spec's own decision D8, and the last part on D1. -/
def Obligations.DisplayFamilyFrame : Prop :=
  ∀ (x y : RegIdx) (n : Fin 16) (s t : State) (p : Part),
    (exec .cls s = .next t → (∀ k, p ≠ .cell k) → p.Same s t) ∧
    (n.val = 0 ∨ s.dataAddr + n.val ≤ 4096 → exec (.drw x y n) s = .next t → p ≠ .v vf →
      (∀ k, p = .cell k → ¬ s.SpriteCovers x y n k) → p.Same s t) ∧
    (n.val ≠ 0 → 4096 < s.dataAddr + n.val → exec (.drw x y n) s = .next t → p ≠ .pc → p ≠ .fault → p.Same s t)

/-! ### Keys and timers -/

/-- EX9E and EXA1 skip on the state of key `V[X]`, and fault when `V[X]` is 16 or more, whatever the keys (rules R72, R73).
The record rests on the spec's own decisions D1 to D3. -/
def Obligations.KeySkipsTestKeyOrFault : Prop :=
  PatternDecodes 0xF0FF#16 0xE09E#16 (fun op => .skp (fieldX op)) ∧
  PatternDecodes 0xF0FF#16 0xE0A1#16 (fun op => .sknp (fieldX op)) ∧
  ∀ (x : RegIdx) (s : State),
    (∀ k : Fin 16, (s.readV x).toNat = k.val →
      (Completes (.skp x) s fun t => t.pc = (if s.keys[k] then s.pc + 2#16 else s.pc) ∧ t.fault = s.fault) ∧
      (Completes (.sknp x) s fun t => t.pc = (if s.keys[k] then s.pc else s.pc + 2#16) ∧ t.fault = s.fault)) ∧
    (16 ≤ (s.readV x).toNat → ∀ i ∈ [Instr.skp x, .sknp x],
      exec i s =
        .next { s with
          pc := s.pc - 2#16
          fault := some ⟨.keyIndexOutOfRange, s.pc - 2#16, some (encode i), (s.readV x).toNat⟩ })

/-- FX07, FX15 and FX18 copy between `V[X]` and the timers: `V[X] <- DT`, `DT <- vx`, `ST <- vx` (rules R74, R76, R77). -/
def Obligations.TimerAccessCopies : Prop :=
  PatternDecodes 0xF0FF#16 0xF007#16 (fun op => .ldVxDt (fieldX op)) ∧
  PatternDecodes 0xF0FF#16 0xF015#16 (fun op => .ldDtVx (fieldX op)) ∧
  PatternDecodes 0xF0FF#16 0xF018#16 (fun op => .ldStVx (fieldX op)) ∧
  ∀ (x : RegIdx) (s : State),
    (Completes (.ldVxDt x) s fun t => t.readV x = s.dt ∧ t.dt = s.dt ∧ t.fault = s.fault) ∧
    (Completes (.ldDtVx x) s fun t => t.dt = s.readV x ∧ t.st = s.st ∧ t.readV vf = s.readV vf ∧ t.fault = s.fault) ∧
    (Completes (.ldStVx x) s fun t => t.st = s.readV x ∧ t.dt = s.dt ∧ t.readV vf = s.readV vf ∧ t.fault = s.fault)

/-- FX0A puts the lowest held key in `V[X]` and proceeds; with no key held it writes only `pc`, back by 2 (rule R75). -/
def Obligations.KeyWaitTakesLowestHeldKey : Prop :=
  PatternDecodes 0xF0FF#16 0xF00A#16 (fun op => .ldVxKey (fieldX op)) ∧
  ∀ (x : RegIdx) (s : State),
    (∀ k : Fin 16, s.keys[k] = true → (∀ j : Fin 16, j < k → s.keys[j] = false) →
      Completes (.ldVxKey x) s fun t => (t.readV x).toNat = k.val ∧ t.pc = s.pc ∧ t.fault = s.fault) ∧
    ((∀ k : Fin 16, s.keys[k] = false) → exec (.ldVxKey x) s = .next { s with pc := s.pc - 2#16 })

/-- Waiting for a key leaves the whole state unchanged over any number of ticks, while no key is held (rules R16, R75). -/
def Obligations.KeyWaitTicksChangeNothing : Prop :=
  ∀ (x : RegIdx) (s : State), s.fault = none → s.Fetches (.ldVxKey x) → (∀ k : Fin 16, s.keys[k] = false) →
    ∀ n, Host.Core.run Sys2Proof.core n s = .next s

/-- The frame of the key and timer family: the key tests write `pc` alone for a key number below 16, and `pc` and the latch
alone for one of 16 or more; the others write their destination, and FX0A also `pc`. The frame rests on the spec's own
decision D8, and the faulting part on D1. -/
def Obligations.KeyAndTimerFamilyFrame : Prop :=
  ∀ (x : RegIdx) (s t : State) (p : Part),
    (∀ i ∈ [Instr.skp x, .sknp x], exec i s = .next t → p ≠ .pc →
      ((s.readV x).toNat < 16 → p.Same s t) ∧ (16 ≤ (s.readV x).toNat → p ≠ .fault → p.Same s t)) ∧
    (exec (.ldVxDt x) s = .next t → p ≠ .v x → p.Same s t) ∧
    (exec (.ldVxKey x) s = .next t → p ≠ .v x → p ≠ .pc → p.Same s t) ∧
    (exec (.ldDtVx x) s = .next t → p ≠ .dt → p.Same s t) ∧
    (exec (.ldStVx x) s = .next t → p ≠ .st → p.Same s t)

/-! ### The whole machine -/

/-- Which instructions' execution writes what, over all 35 and for every field of the state table (rules R5 to R15, R90): none
writes the keys; the V registers, `pc`, DT, ST, I, the stack, the display, memory and the latch each change only by the
instructions named here. `pc` and the latch also change when an instruction takes a fault, each for its own reason (rule R79).
Rests on the spec's own decisions D1 and D8. The last clause is about the count of draws, which is the model's own (log entry
4) and in no table of the spec. -/
def Obligations.OnlyNamedInstructionsWriteEachField : Prop :=
  ∀ (i : Instr) (s t : State), exec i s = .next t →
    t.keys = s.keys ∧
    (t.dt = s.dt ∨ ∃ x, i = .ldDtVx x) ∧
    (t.st = s.st ∨ ∃ x, i = .ldStVx x) ∧
    (t.i = s.i ∨ (∃ nnn, i = .ldI nnn) ∨ ∃ x, i = .addI x ∨ i = .ldFont x) ∧
    ((t.sp = s.sp ∧ t.stack = s.stack) ∨ i = .ret ∨ ∃ nnn, i = .call nnn) ∧
    (t.display = s.display ∨ i = .cls ∨ ∃ x y n, i = .drw x y n) ∧
    (t.mem = s.mem ∨ ∃ x, i = .bcd x ∨ i = .stRegs x) ∧
    (t.pc = s.pc ∨ (∃ code, TakesFault i code s t) ∨ i = .ret ∨
      (∃ nnn, i ∈ [Instr.jp nnn, .call nnn, .jpV0 nnn]) ∨ (∃ x nn, i ∈ [Instr.seImm x nn, .sneImm x nn]) ∨
      (∃ x y, i ∈ [Instr.seReg x y, .sneReg x y]) ∨ ∃ x, i ∈ [Instr.skp x, .sknp x, .ldVxKey x]) ∧
    (t.fault = s.fault ∨ (i = .ret ∧ TakesFault i .stackUnderflow s t) ∨
      ((∃ nnn, i = .call nnn) ∧ TakesFault i .stackOverflow s t) ∨
      ((∃ x, i ∈ [Instr.skp x, .sknp x]) ∧ TakesFault i .keyIndexOutOfRange s t) ∨
      (((∃ x, i ∈ [Instr.bcd x, .stRegs x, .ldRegs x]) ∨ ∃ x y n, i = .drw x y n) ∧
        TakesFault i .memoryOutOfRange s t)) ∧
    (∀ k : RegIdx, t.readV k = s.readV k ∨
      (∃ y nn, i ∈ [Instr.ldImm k nn, .addImm k nn, .ldReg k y, .orReg k y, .andReg k y, .xorReg k y, .addReg k y,
        .subReg k y, .shrReg k y, .subnReg k y, .shlReg k y, .rnd k nn, .ldVxDt k, .ldVxKey k]) ∨
      (∃ x : RegIdx, k.val ≤ x.val ∧ i = .ldRegs x) ∨
      (k = vf ∧ ((∃ x y, i ∈ [Instr.addReg x y, .subReg x y, .shrReg x y, .subnReg x y, .shlReg x y]) ∨
        ∃ x y n, i = .drw x y n))) ∧
    (t.draws = s.draws ∨ ∃ x nn, i = .rnd x nn)

/-- Which instructions can change VF (rule R6): the five that set an arithmetic flag, DXYN, and those that write register X
when X is 15. Rests on the spec's own decision D8. -/
def Obligations.OnlyNamedInstructionsWriteVf : Prop :=
  ∀ (i : Instr) (s t : State), exec i s = .next t → t.readV vf ≠ s.readV vf →
    (∃ x y, i ∈ [Instr.addReg x y, .subReg x y, .shrReg x y, .subnReg x y, .shlReg x y]) ∨
    (∃ x y n, i = .drw x y n) ∨
    (∃ y nn, i ∈ [Instr.ldImm vf nn, .addImm vf nn, .ldReg vf y, .orReg vf y, .andReg vf y, .xorReg vf y, .rnd vf nn,
      .ldVxDt vf, .ldVxKey vf, .ldRegs vf])

/-- The invariant every step keeps: canonical memory, `pc` at most 4350 (rule R7), even return addresses at most 4096 on the
stack (rules R26, R44), and a latched record that agrees with the state (rules R80, R83). -/
def Obligations.StepKeepsInvariant : Prop :=
  ∀ s t : State, s.Inv → step s = .next t → t.Inv

/-- The reset state meets the invariant. -/
def Obligations.ResetMeetsInvariant : Prop := State.reset.Inv

/-- Any sequence of host calls, in any order, keeps the invariant (rule R94), `load` among them. -/
def Obligations.HostCallsKeepInvariant : Prop :=
  ∀ (cs : List HostCall) (s : State), s.Inv → (hostCalls cs s).1.Inv

/-! ### Host operations -/

/-- `tick_timers`: each timer above 0 counts down by one, a timer at 0 stays there, the beep output is true exactly when ST
was 1, and nothing else changes (rule R88). -/
def Obligations.TickTimersCountsDown : Prop :=
  ∀ s : State, ∃ t b, hostCall .tickTimers s = (t, .beep b) ∧
    t.dt.toNat = s.dt.toNat - 1 ∧ t.st.toNat = s.st.toNat - 1 ∧ (b = true ↔ s.st.toNat = 1) ∧
    ∀ p : Part, p ≠ .dt → p ≠ .st → p.Same s t

/-- Over any number of frames the timers reach 0 and stay there, and the beep comes on exactly one call, the one that takes ST
from 1 to 0 (rules R88, R89). The beep's form is the spec's own decision D10. -/
def Obligations.TimersFloorAndBeepOnce : Prop :=
  ∀ (n : Nat) (s : State),
    (hostCalls (List.replicate n .tickTimers) s).1.dt.toNat = s.dt.toNat - n ∧
    (hostCalls (List.replicate n .tickTimers) s).1.st.toNat = s.st.toNat - n ∧
    (hostCalls (List.replicate n .tickTimers) s).2 =
      (List.range n).map (fun k => HostAnswer.beep (decide (s.st.toNat = k + 1)))

/-- `set_key` sets its own key and changes nothing else, latched or not (rule R91). That no index of 16 or more can be passed
is the spec's own decision D15. -/
def Obligations.SetKeyWritesOneKey : Prop :=
  ∀ (k : Fin 16) (pressed : Bool) (s : State), ∃ t, hostCall (.setKey k pressed) s = (t, .done) ∧
    t.keys[k] = pressed ∧ ∀ p : Part, p ≠ .key k → p.Same s t

/-- `get_display` returns the 2048 cells in index order, cell (x, y) at `x + 64*y`, and changes nothing (rule R92). -/
def Obligations.GetDisplayIsRowMajor : Prop :=
  ∀ s : State, ∃ shown, hostCall .getDisplay s = (s, .cells shown) ∧ shown.length = 2048 ∧
    ∀ (x : Fin 64) (y : Fin 32), shown[x.val + 64 * y.val]? = some (s.display.cell x y)

/-- `load` copies at most 3584 bytes to address 512 up and changes nothing else; with more it changes nothing and says so (rule
R101). The error result and repeated loads rest on the spec's own decision D14. -/
def Obligations.LoadCopiesOrRefuses : Prop :=
  ∀ (bytes : List Byte) (s : State),
    (bytes.length ≤ 3584 → ∃ t, hostCall (.load bytes) s = (t, .ok) ∧
      (∀ k, ∀ h : k < bytes.length, t.mem.read (512 + k) = bytes[k]) ∧
      ∀ p : Part, (∀ k < bytes.length, p ≠ .byte (512 + k)) → p.Same s t) ∧
    (3584 < bytes.length → hostCall (.load bytes) s = (s, .loadTooLarge))

/-- The reset state, field by field (rule R100): the stack, the keys and the latch rest on the spec's own decisions D2 and
D11; the font bytes are whatever `font` holds, and memory from 80
to 4095 reads 0. -/
def Obligations.ResetStateIsAsStated : Prop :=
  (∀ x, State.reset.readV x = 0#8) ∧ State.reset.pc = 512#16 ∧ State.reset.i = 0#16 ∧ State.reset.sp = 0 ∧
  (∀ k : Fin 16, State.reset.stack[k] = 0#16) ∧ State.reset.dt = 0#8 ∧ State.reset.st = 0#8 ∧
  (∀ k, State.reset.display.cellAt k = false) ∧ (∀ k : Fin 16, State.reset.keys[k] = false) ∧
  (∀ a, ∀ h : a < font.length, State.reset.mem.read a = font[a]) ∧ font.length = 80 ∧
  (∀ a, 80 ≤ a → a < 4096 → State.reset.mem.read a = 0#8) ∧ State.reset.fault = none

/-- `new` and `reset` give the reset state from any state, latched or not (rules R98, R99). That the model's own count of draws
goes on is its choice (log entry 5). -/
def Obligations.ResetRestoresEveryField : Prop :=
  ∀ (c : HostCall) (s : State), c = .new ∨ c = .reset →
    hostCall c s = ({ State.reset with draws := s.draws }, .done)

/-! ### A sprite on itself -/

/-- Rule R71, for rows that exist: the cells under different columns or rows of a sprite are distinct; so the bits of the sprite
may be drawn in any order, with the same display and VF; the draw does not change memory; and where no covered pixel was
lit, a second equal draw of a sprite with a set bit unlights every covered pixel and reports VF = 1. The last clause is R71's
last sentence for the displays its source speaks of (95_test_vectors.md W5: every pixel goes from lit to unlit); taken for
every display the sentence contradicts rule R70 (log entry 8). -/
def Obligations.SpriteNeverOverlapsItself : Prop :=
  ∀ (x y : RegIdx) (n : Fin 16) (s : State), n.val = 0 ∨ s.dataAddr + n.val ≤ 4096 →
    (∀ r c r' c', r < n.val → c < 8 → r' < n.val → c' < 8 →
      ((s.readV x).toNat + c) % 64 = ((s.readV x).toNat + c') % 64 →
      ((s.readV y).toNat + r) % 32 = ((s.readV y).toNat + r') % 32 → r = r' ∧ c = c') ∧
    Completes (.drw x y n) s fun t =>
      t.mem = s.mem ∧
      (∀ bits : List (Nat × Nat), bits.Nodup →
        (∀ r c, (r, c) ∈ bits ↔ r < n.val ∧ c < 8 ∧ spriteBit (s.mem.read (s.dataAddr + r)) c = true) →
        (t.display, t.readV vf) =
          (bits.foldl (fun p b => drawPixel ((s.readV x).toNat + b.2) ((s.readV y).toNat + b.1) p)
            (s.display, false)).map id flagByte) ∧
      ((∃ r, r < n.val ∧ s.mem.read (s.dataAddr + r) ≠ 0#8) →
        (∀ k, s.SpriteCovers x y n k → s.display.cellAt k = false) →
        ∀ u : State, u.display = t.display → u.mem = t.mem → u.i = s.i → u.readV x = s.readV x →
          u.readV y = s.readV y → Completes (.drw x y n) u fun w =>
            w.readV vf = 1#8 ∧ ∀ k, s.SpriteCovers x y n k → w.display.cellAt k = false)
end

