-- ==== Sys2Proof/Laws/Draw.lean ====
section
/-! SUPPORT. What the framebuffer operations do, cell by cell: a flip, a sprite row, and a whole sprite (rules R70, R71). -/

namespace Sys2Proof.Machine

/-- A flip inverts its own cell and no other. -/
theorem Display.cell_flip (d : Display) (x px : Fin 64) (y py : Fin 32) :
    (d.flip x y).cell px py = if px = x ∧ py = y then !d.cell x y else d.cell px py := by
  by_cases hy : py = y
  · subst hy
    by_cases hx : px = x
    · subst hx
      simp [Display.cell, Display.flip]
    · have : x.val ≠ px.val := fun e => hx (Fin.ext e.symm)
      simp [Display.cell, Display.flip, hx, this]
  · have : y.val ≠ py.val := fun e => hy (Fin.ext e.symm)
    simp [Display.cell, Display.flip, hy, this]

/-- Every cell of the clear display is unlit (rule R69). -/
@[simp] theorem Display.cell_clear (x : Fin 64) (y : Fin 32) : Display.clear.cell x y = false := by
  simp [Display.cell, Display.clear]

/-- Two displays with the same cells are the same display. -/
theorem Display.ext_cell {d e : Display} (h : ∀ x y, d.cell x y = e.cell x y) : d = e := by
  ext y hy x hx
  exact h ⟨x, hx⟩ ⟨y, hy⟩

/-- Cell numbers reach every cell (rule R13). -/
theorem Display.ext_cellAt {d e : Display} (h : ∀ k, d.cellAt k = e.cellAt k) : d = e := by
  refine Display.ext_cell fun x y => ?_
  have hk := h ⟨x.val + 64 * y.val, by omega⟩
  have hx : cellColumn ⟨x.val + 64 * y.val, by omega⟩ = x := Fin.ext (by simp [cellColumn])
  have hy : cellRow ⟨x.val + 64 * y.val, by omega⟩ = y := Fin.ext (by simp [cellRow]; omega)
  simpa [Display.cellAt, hx, hy] using hk

/-- Column `c` of a sprite row at (x0, y) draws on the pixel (px, py). -/
def ColumnHits (x0 y : Nat) (b : Byte) (px : Fin 64) (py : Fin 32) (c : Nat) : Prop :=
  spriteBit b c = true ∧ (x0 + c) % 64 = px.val ∧ y % 32 = py.val

/-- What drawing a list of pixels does, given by row and column, when no two of them are the same cell: each is inverted and no
other, whatever the order, and there is a collision when one of them was lit (rules R70, R71). -/
theorem drawPixels_spec (x0 y0 : Nat) (bits : List (Nat × Nat))
    (hd : bits.Pairwise fun a b => ¬ (wrapX (x0 + a.2) = wrapX (x0 + b.2) ∧ wrapY (y0 + a.1) = wrapY (y0 + b.1)))
    (p : Draw) :
    let q := bits.foldl (fun q b => drawPixel (x0 + b.2) (y0 + b.1) q) p
    (∀ px py, (∃ b ∈ bits, px = wrapX (x0 + b.2) ∧ py = wrapY (y0 + b.1)) → q.1.cell px py = !p.1.cell px py) ∧
    (∀ px py, (¬ ∃ b ∈ bits, px = wrapX (x0 + b.2) ∧ py = wrapY (y0 + b.1)) → q.1.cell px py = p.1.cell px py) ∧
    (q.2 = true ↔ p.2 = true ∨ ∃ b ∈ bits, p.1.cell (wrapX (x0 + b.2)) (wrapY (y0 + b.1)) = true) := by
  induction bits generalizing p with
  | nil => simp
  | cons a bits ih =>
    rw [List.pairwise_cons] at hd
    obtain ⟨hA, hB, hC⟩ := ih hd.2 (drawPixel (x0 + a.2) (y0 + a.1) p)
    have hcell : ∀ px py, (drawPixel (x0 + a.2) (y0 + a.1) p).1.cell px py =
        if px = wrapX (x0 + a.2) ∧ py = wrapY (y0 + a.1) then !p.1.cell (wrapX (x0 + a.2)) (wrapY (y0 + a.1))
        else p.1.cell px py := fun px py => Display.cell_flip _ _ _ _ _
    have hother : ∀ b ∈ bits, ¬ (wrapX (x0 + b.2) = wrapX (x0 + a.2) ∧ wrapY (y0 + b.1) = wrapY (y0 + a.1)) :=
      fun b hb h => hd.1 b hb ⟨h.1.symm, h.2.symm⟩
    simp only [List.foldl_cons]
    refine ⟨?_, ?_, ?_⟩
    · rintro px py ⟨b, hb, rfl, rfl⟩
      rcases List.mem_cons.1 hb with rfl | hb
      · rw [hB _ _ (fun ⟨c, hc, h⟩ => hd.1 c hc h), hcell, if_pos ⟨rfl, rfl⟩]
      · rw [hA _ _ ⟨b, hb, rfl, rfl⟩, hcell, if_neg (hother b hb)]
    · intro px py h
      rw [hB _ _ (fun ⟨b, hb, e⟩ => h ⟨b, List.mem_cons_of_mem _ hb, e⟩), hcell, if_neg (fun e => h ⟨a, by simp, e⟩)]
    · have ha : (drawPixel (x0 + a.2) (y0 + a.1) p).2 = (p.2 || p.1.cell (wrapX (x0 + a.2)) (wrapY (y0 + a.1))) := rfl
      rw [hC, ha]
      simp only [Bool.or_eq_true, List.mem_cons, exists_eq_or_imp, or_assoc]
      refine or_congr Iff.rfl (or_congr Iff.rfl (exists_congr fun b => and_congr_right fun hb => ?_))
      rw [hcell, if_neg (hother b hb)]

/-- A lit pixel drawn twice: the first draw collides and unlights it, the second lights it again without a collision. So rule
R70 itself gives no collision in the second of two equal draws over pixels that were all lit (log entry 8). -/
theorem drawPixel_twice_lit (x y : Nat) (d : Display) (h : d.cell (wrapX x) (wrapY y) = true) :
    let q := drawPixel x y (d, false)
    q.2 = true ∧ (drawPixel x y (q.1, false)).2 = false := by
  simp [drawPixel, Display.cell_flip, h]

/-- What a list of distinct columns draws. -/
theorem drawColumns_spec (x0 y : Nat) (b : Byte) (cs : List Nat) (hlt : ∀ c ∈ cs, c < 8) (hnd : cs.Nodup) (p : Draw) :
    let q := cs.foldl (fun q c => if spriteBit b c then drawPixel (x0 + c) y q else q) p
    (∀ px py, (∃ c ∈ cs, ColumnHits x0 y b px py c) → q.1.cell px py = !p.1.cell px py) ∧
    (∀ px py, (¬ ∃ c ∈ cs, ColumnHits x0 y b px py c) → q.1.cell px py = p.1.cell px py) ∧
    (q.2 = true ↔ p.2 = true ∨ ∃ px py, (∃ c ∈ cs, ColumnHits x0 y b px py c) ∧ p.1.cell px py = true) := by
  have hfold : cs.foldl (fun q c => if spriteBit b c then drawPixel (x0 + c) y q else q) p =
      ((cs.filter (spriteBit b)).map (Prod.mk 0)).foldl (fun q k => drawPixel (x0 + k.2) (y + k.1) q) p := by
    simp [List.foldl_map, List.foldl_filter]
  have hd : ((cs.filter (spriteBit b)).map (Prod.mk 0)).Pairwise fun j k =>
      ¬ (wrapX (x0 + j.2) = wrapX (x0 + k.2) ∧ wrapY (y + j.1) = wrapY (y + k.1)) := by
    refine List.pairwise_map.2 ((hnd.filter _).imp_of_mem fun {j k} hj hk hne h => hne ?_)
    have hj8 := hlt j (List.mem_of_mem_filter hj)
    have hk8 := hlt k (List.mem_of_mem_filter hk)
    have := congrArg Fin.val h.1
    simp only [wrapX] at this
    omega
  have hhit : ∀ px py, (∃ k ∈ (cs.filter (spriteBit b)).map (Prod.mk 0), px = wrapX (x0 + k.2) ∧ py = wrapY (y + k.1)) ↔
      ∃ c ∈ cs, ColumnHits x0 y b px py c := by
    intro px py
    simp only [List.mem_map, List.mem_filter, ColumnHits, wrapX, wrapY, Fin.ext_iff]
    constructor
    · rintro ⟨_, ⟨c, ⟨hc, hbit⟩, rfl⟩, h1, h2⟩
      exact ⟨c, hc, hbit, h1.symm, h2.symm⟩
    · rintro ⟨c, hc, hbit, h1, h2⟩
      exact ⟨_, ⟨c, ⟨hc, hbit⟩, rfl⟩, h1.symm, h2.symm⟩
  obtain ⟨hA, hB, hC⟩ := drawPixels_spec x0 y _ hd p
  rw [hfold]
  refine ⟨fun px py h => hA px py ((hhit px py).2 h), fun px py h => hB px py (fun h' => h ((hhit px py).1 h')), hC.trans ?_⟩
  refine or_congr Iff.rfl ⟨fun ⟨k, hk, hl⟩ => ⟨_, _, (hhit _ _).1 ⟨k, hk, rfl, rfl⟩, hl⟩, fun ⟨px, py, h, hl⟩ => ?_⟩
  obtain ⟨k, hk, rfl, rfl⟩ := (hhit px py).2 h
  exact ⟨k, hk, hl⟩

/-- A sprite row at (x0, y) covers the pixel (px, py). -/
def RowCovers (x0 y : Nat) (b : Byte) (px : Fin 64) (py : Fin 32) : Prop :=
  ∃ c, c < 8 ∧ (x0 + c) % 64 = px.val ∧ y % 32 = py.val ∧ b.getLsbD (7 - c) = true

/-- What one sprite row does: it inverts the pixels it covers and no other, and collides when one of them was lit. -/
theorem drawRow_spec (x0 y : Nat) (b : Byte) (p : Draw) :
    (∀ px py, RowCovers x0 y b px py → (drawRow x0 y b p).1.cell px py = !p.1.cell px py) ∧
    (∀ px py, ¬ RowCovers x0 y b px py → (drawRow x0 y b p).1.cell px py = p.1.cell px py) ∧
    ((drawRow x0 y b p).2 = true ↔ p.2 = true ∨ ∃ px py, RowCovers x0 y b px py ∧ p.1.cell px py = true) := by
  have h := drawColumns_spec x0 y b (List.range 8) (fun c hc => List.mem_range.1 hc) List.nodup_range p
  have hiff : ∀ px py, (∃ c ∈ List.range 8, ColumnHits x0 y b px py c) ↔ RowCovers x0 y b px py := by
    intro px py
    constructor
    · rintro ⟨c, hc, h1, h2, h3⟩
      exact ⟨c, List.mem_range.1 hc, h2, h3, h1⟩
    · rintro ⟨c, hc, h2, h3, h1⟩
      exact ⟨c, List.mem_range.2 hc, h1, h2, h3⟩
  simp only [hiff] at h
  exact h

theorem covers_cons (x0 y : Nat) (b : Byte) (bs : List Byte) (px : Fin 64) (py : Fin 32) :
    Covers x0 y (b :: bs) px py ↔ RowCovers x0 y b px py ∨ Covers x0 (y + 1) bs px py := by
  constructor
  · rintro ⟨r, c, h, hc, h1, h2, h3⟩
    cases r with
    | zero => exact Or.inl ⟨c, hc, h1, h2, h3⟩
    | succ r =>
      refine Or.inr ⟨r, c, by simpa using h, hc, h1, ?_, h3⟩
      rw [← h2]
      congr 1
      omega
  · rintro (⟨c, hc, h1, h2, h3⟩ | ⟨r, c, h, hc, h1, h2, h3⟩)
    · exact ⟨0, c, by simp, hc, h1, h2, h3⟩
    · refine ⟨r + 1, c, by simpa using h, hc, h1, ?_, h3⟩
      rw [← h2]
      congr 1
      omega

/-- What a sprite of at most 32 rows does (rules R70, R71): it inverts the pixels it covers and no other, and collides
exactly when one of them was lit. -/
theorem drawRows_spec (x0 y : Nat) (rows : List Byte) (hlen : rows.length ≤ 32) (p : Draw) :
    (∀ px py, Covers x0 y rows px py → (drawRows x0 y rows p).1.cell px py = !p.1.cell px py) ∧
    (∀ px py, ¬ Covers x0 y rows px py → (drawRows x0 y rows p).1.cell px py = p.1.cell px py) ∧
    ((drawRows x0 y rows p).2 = true ↔ p.2 = true ∨ ∃ px py, Covers x0 y rows px py ∧ p.1.cell px py = true) := by
  induction rows generalizing y p with
  | nil =>
    have hno : ∀ px py, ¬ Covers x0 y [] px py := fun px py ⟨r, c, h, _⟩ => by simp at h
    simp [drawRows, hno]
  | cons b bs ih =>
    obtain ⟨hA, hB, hC⟩ := drawRow_spec x0 y b p
    obtain ⟨hA', hB', hC'⟩ := ih (y + 1) (by simp only [List.length_cons] at hlen; omega) (drawRow x0 y b p)
    have hdisj : ∀ px py, RowCovers x0 y b px py → ¬ Covers x0 (y + 1) bs px py := by
      rintro px py ⟨c, -, -, h1, -⟩ ⟨r, d, hr, -, -, h2, -⟩
      simp only [List.length_cons] at hlen
      omega
    simp only [drawRows, covers_cons]
    refine ⟨?_, ?_, ?_⟩
    · rintro px py (h | h)
      · rw [hB' px py (hdisj px py h), hA px py h]
      · rw [hA' px py h, hB px py (fun h' => hdisj px py h' h)]
    · intro px py h
      rw [hB' px py (fun h' => h (Or.inr h')), hB px py (fun h' => h (Or.inl h'))]
    · rw [hC', hC]
      constructor
      · rintro ((h | ⟨px, py, h, hl⟩) | ⟨px, py, h, hl⟩)
        · exact Or.inl h
        · exact Or.inr ⟨px, py, Or.inl h, hl⟩
        · rw [hB px py (fun h' => hdisj px py h' h)] at hl
          exact Or.inr ⟨px, py, Or.inr h, hl⟩
      · rintro (h | ⟨px, py, h | h, hl⟩)
        · exact Or.inl (Or.inl h)
        · exact Or.inl (Or.inr ⟨px, py, h, hl⟩)
        · refine Or.inr ⟨px, py, h, ?_⟩
          rw [hB px py (fun h' => hdisj px py h' h), hl]

end Sys2Proof.Machine
end

