-- ==== Sys2Proof/Laws/Encoding.lean ====
section
/-! SUPPORT. The fields of an opcode as arithmetic, what the table's masks select, and the fields of an encoded instruction (rules R34, R36). -/

namespace Sys2Proof

/-! ### The masks of the table -/

/-- The mask of the NNN, XNN and DXYN rows keeps n1. -/
theorem and_F000 (op : Word) : op &&& 0xF000#16 = op.extractLsb' 12 4 ++ 0#12 := by
  apply BitVec.eq_of_getLsbD_eq
  intro j hj
  rw [BitVec.getLsbD_append]
  interval_cases j <;> simp

/-- The mask of the XY rows keeps n1 and n4. -/
theorem and_F00F (op : Word) : op &&& 0xF00F#16 = op.extractLsb' 12 4 ++ (0#8 ++ op.extractLsb' 0 4) := by
  apply BitVec.eq_of_getLsbD_eq
  intro j hj
  rw [BitVec.getLsbD_append, BitVec.getLsbD_append]
  interval_cases j <;> simp

/-- The mask of the E and F rows keeps n1 and NN. -/
theorem and_F0FF (op : Word) : op &&& 0xF0FF#16 = op.extractLsb' 12 4 ++ (0#4 ++ op.extractLsb' 0 8) := by
  apply BitVec.eq_of_getLsbD_eq
  intro j hj
  rw [BitVec.getLsbD_append, BitVec.getLsbD_append]
  interval_cases j <;> simp

/-- The mask of the 0 rows keeps the whole opcode. -/
theorem and_FFFF (op : Word) : op &&& 0xFFFF#16 = op := by
  apply BitVec.eq_of_getLsbD_eq
  intro j hj
  interval_cases j <;> simp

/-- A field that a mask keeps whole is the pattern's field. -/
theorem field_of_mask {op mask pattern : Word} (lo n : Nat) (hm : mask.extractLsb' lo n = BitVec.allOnes n)
    (h : op &&& mask = pattern) : op.extractLsb' lo n = pattern.extractLsb' lo n := by
  subst h
  simp [BitVec.extractLsb'_and, hm]

/-! ### Fields as arithmetic -/

theorem fieldN1_eq (op : Word) : fieldN1 op = op.toNat / 4096 % 16 := by
  simp [fieldN1, Nat.shiftRight_eq_div_pow]

theorem fieldX_val (op : Word) : (fieldX op).val = op.toNat / 256 % 16 := by
  simp [fieldX, Nat.shiftRight_eq_div_pow]

theorem fieldY_val (op : Word) : (fieldY op).val = op.toNat / 16 % 16 := by
  simp [fieldY, Nat.shiftRight_eq_div_pow]

theorem fieldN_val (op : Word) : (fieldN op).val = op.toNat % 16 := by
  simp [fieldN]

theorem fieldNN_toNat (op : Word) : (fieldNN op).toNat = op.toNat % 256 := by
  simp [fieldNN]

theorem fieldNNN_toNat (op : Word) : (fieldNNN op).toNat = op.toNat % 4096 := by
  simp [fieldNNN]

/-! ### The encoder's words as arithmetic -/

theorem encodeNNN_toNat {n1 : Nat} (h : n1 < 16) (nnn : Imm12) :
    (encodeNNN n1 nnn).toNat = n1 * 4096 + nnn.toNat := by
  have := nnn.isLt
  simp only [encodeNNN, BitVec.toNat_ofNat]
  omega

theorem encodeXNN_toNat {n1 : Nat} (h : n1 < 16) (x : RegIdx) (nn : Byte) :
    (encodeXNN n1 x nn).toNat = n1 * 4096 + x.val * 256 + nn.toNat := by
  have := x.isLt
  have := nn.isLt
  simp only [encodeXNN, BitVec.toNat_ofNat]
  omega

theorem encodeXYN_toNat {n1 : Nat} (h : n1 < 16) (x y : RegIdx) (n4 : Fin 16) :
    (encodeXYN n1 x y n4).toNat = n1 * 4096 + x.val * 256 + y.val * 16 + n4.val := by
  have := x.isLt
  have := y.isLt
  have := n4.isLt
  simp only [encodeXYN, BitVec.toNat_ofNat]
  omega

/-- The bytes of an opcode make the opcode again (rule R25). -/
@[simp] theorem wordOfBytes_bytesOfWord (op : Word) : wordOfBytes (bytesOfWord op).1 (bytesOfWord op).2 = op := by
  apply BitVec.eq_of_getLsbD_eq
  intro j hj
  rw [wordOfBytes, bytesOfWord, BitVec.getLsbD_append]
  interval_cases j <;> simp

/-- Two bytes as a number, the first the high one (rule R25). -/
theorem wordOfBytes_toNat (hi lo : Byte) : (wordOfBytes hi lo).toNat = hi.toNat * 256 + lo.toNat := by
  have := lo.isLt
  simp only [wordOfBytes, BitVec.toNat_append]
  rw [← Nat.shiftLeft_add_eq_or_of_lt this, Nat.shiftLeft_eq]

/-- A word is its number. -/
theorem word_eq_of_toNat {a b : Word} (h : a.toNat = b.toNat) : a = b := BitVec.eq_of_toNat_eq h

end Sys2Proof
end

