-- ==== Sys2Proof/Laws/Memory.lean ====
section
/-! SUPPORT. The laws of memory: a read after a write (rules R23, R24, R29), the canonical form that every memory operation keeps, and what block reads and writes do (rules R22, R28, R82). -/

namespace Sys2Proof.Machine

variable {m m' : Memory} {a b : Nat} {v : Byte}

/-! ### One byte -/

theorem Memory.lookup_filter_same (m : Memory) (a : Nat) : (m.filter (fun c => c.1 != a)).lookup a = none := by
  induction m with
  | nil => rfl
  | cons c m ih =>
    obtain ⟨k, w⟩ := c
    by_cases h : k = a
    · simpa [List.filter_cons, h] using ih
    · have h' : (a == k) = false := by simpa using fun e : a = k => h e.symm
      simpa [List.filter_cons, h, List.lookup_cons, h'] using ih

theorem Memory.lookup_filter_other (m : Memory) (h : b ≠ a) :
    (m.filter (fun c => c.1 != a)).lookup b = m.lookup b := by
  induction m with
  | nil => rfl
  | cons c m ih =>
    obtain ⟨k, w⟩ := c
    by_cases hk : k = a
    · subst hk
      have : (b == k) = false := by simpa using h
      simp [List.lookup_cons, this, ih]
    · by_cases hb : b = k
      · simp [hk, hb]
      · have : (b == k) = false := by simpa using hb
        simpa [List.filter_cons, hk, List.lookup_cons, this] using ih

theorem Memory.lookup_insertCell_same (m : Memory) (a : Nat) (v : Byte) (h : m.lookup a = none) :
    (Memory.insertCell m a v).lookup a = some v := by
  induction m with
  | nil => simp [Memory.insertCell]
  | cons c m ih =>
    obtain ⟨k, w⟩ := c
    by_cases hk : a = k
    · simp [hk] at h
    · have hb : (a == k) = false := by simpa using hk
      have ih' := ih (by simpa [List.lookup_cons, hb] using h)
      unfold Memory.insertCell
      split
      · simp
      · simpa [List.lookup_cons, hb] using ih'

theorem Memory.lookup_insertCell_other (m : Memory) (v : Byte) (h : b ≠ a) :
    (Memory.insertCell m a v).lookup b = m.lookup b := by
  have hb : (b == a) = false := by simpa using h
  induction m with
  | nil => simp [Memory.insertCell, List.lookup_cons, hb]
  | cons c m ih =>
    obtain ⟨k, w⟩ := c
    unfold Memory.insertCell
    split
    · simp [List.lookup_cons, hb]
    · simp [List.lookup_cons, ih]

/-- A byte reads as it was last written (rule R29), in any memory. -/
@[simp] theorem Memory.read_write_same (m : Memory) (a : Nat) (v : Byte) : (m.write a v).read a = v := by
  unfold Memory.write Memory.read
  split
  · next h => simp [Memory.lookup_filter_same, h]
  · simp [Memory.lookup_insertCell_same _ _ _ (Memory.lookup_filter_same m a)]

/-- A write leaves every other address as it was (rule R29), in any memory. -/
theorem Memory.read_write_other (m : Memory) (v : Byte) (h : b ≠ a) : (m.write a v).read b = m.read b := by
  unfold Memory.write Memory.read
  split
  · simp [Memory.lookup_filter_other m h]
  · simp [Memory.lookup_insertCell_other _ v h, Memory.lookup_filter_other m h]

/-- Any address after a write. -/
theorem Memory.read_write (m : Memory) (a b : Nat) (v : Byte) :
    (m.write a v).read b = if b = a then v else m.read b := by
  by_cases h : b = a
  · subst h; simp
  · simp [h, Memory.read_write_other]

/-! ### The canonical form -/

/-- Nothing listed is canonical: the reset memory. -/
theorem Memory.wf_nil : Memory.wf [] := ⟨List.Pairwise.nil, by simp⟩

theorem Memory.mem_insertCell {c : Host.Cell} :
    c ∈ Memory.insertCell m a v ↔ c = (a, v) ∨ c ∈ m := by
  induction m with
  | nil => simp [Memory.insertCell]
  | cons d m ih =>
    obtain ⟨k, w⟩ := d
    unfold Memory.insertCell
    split
    · simp
    · simp only [List.mem_cons, ih]
      tauto

theorem Memory.pairwise_insertCell (h : m.Pairwise (fun c d => c.1 < d.1)) (ha : ∀ c ∈ m, c.1 ≠ a) :
    (Memory.insertCell m a v).Pairwise (fun c d => c.1 < d.1) := by
  induction m with
  | nil => simp [Memory.insertCell]
  | cons d m ih =>
    obtain ⟨k, w⟩ := d
    rw [List.pairwise_cons] at h
    have hk : k ≠ a := ha (k, w) (by simp)
    unfold Memory.insertCell
    split
    · next hlt =>
      refine List.pairwise_cons.2 ⟨?_, List.pairwise_cons.2 h⟩
      rintro c hc
      rcases List.mem_cons.1 hc with rfl | hc
      · exact hlt
      · exact Nat.lt_trans hlt (h.1 c hc)
    · next hlt =>
      refine List.pairwise_cons.2 ⟨?_, ih h.2 (fun c hc => ha c (List.mem_cons_of_mem _ hc))⟩
      rintro c hc
      rcases Memory.mem_insertCell.1 hc with rfl | hc
      · show k < a
        omega
      · exact h.1 c hc

/-- A write to an address that exists keeps the canonical form. -/
theorem Memory.wf_write (h : m.wf) (ha : a < Config.memSize) (v : Byte) : (m.write a v).wf := by
  have hp : (m.filter (fun c => c.1 != a)).Pairwise (fun c d => c.1 < d.1) := h.1.filter _
  have hne : ∀ c ∈ m.filter (fun c => c.1 != a), c.1 ≠ a := by
    intro c hc
    simpa using (List.mem_filter.1 hc).2
  have hcell : ∀ c ∈ m.filter (fun c => c.1 != a), c.1 < Config.memSize ∧ c.2 ≠ Memory.initial c.1 :=
    fun c hc => h.2 c (List.mem_filter.1 hc).1
  unfold Memory.write
  split
  · exact ⟨hp, hcell⟩
  · next hv =>
    refine ⟨Memory.pairwise_insertCell hp hne, ?_⟩
    intro c hc
    rcases Memory.mem_insertCell.1 hc with rfl | hc
    · exact ⟨ha, hv⟩
    · exact hcell c hc

/-- Copying bytes that all fit keeps the canonical form (rule R101). -/
theorem Memory.wf_store (h : m.wf) (bs : List Byte) (ha : a + bs.length ≤ Config.memSize) :
    (Memory.store m a bs).wf := by
  induction bs generalizing m a with
  | nil => exact h
  | cons b bs ih =>
    simp only [List.length_cons] at ha
    exact ih (Memory.wf_write h (by omega) b) (by omega)

/-- Any address after a copy of bytes (rule R101). -/
theorem Memory.read_store (m : Memory) (a b : Nat) (bs : List Byte) :
    (Memory.store m a bs).read b =
      if h : a ≤ b ∧ b < a + bs.length then bs[b - a]'(by omega) else m.read b := by
  induction bs generalizing m a with
  | nil => simp [Memory.store]
  | cons v bs ih =>
    simp only [Memory.store, ih, List.length_cons, Memory.read_write]
    by_cases h1 : a + 1 ≤ b ∧ b < a + 1 + bs.length
    · have h2 : a ≤ b ∧ b < a + (bs.length + 1) := by omega
      have h3 : b - a = (b - (a + 1)) + 1 := by omega
      simp [h1, h2, h3]
    · by_cases hb : b = a
      · subst hb; simp
      · have h2 : ¬ (a ≤ b ∧ b < a + (bs.length + 1)) := by omega
        rw [dif_neg h1, dif_neg h2, if_neg hb]

/-! ### Blocks -/

/-- A block read answers the bytes at its addresses when it is empty or all of them exist, and otherwise the lowest
address that does not (rules R22, R23, R82). -/
theorem readBlock_eq (m : Memory) (a n : Nat) :
    readBlock m a n =
      if n = 0 ∨ a + n ≤ Config.memSize then .ok ((List.range n).map (fun k => m.read (a + k)))
      else .error (max a Config.memSize) := by
  induction n generalizing a with
  | zero => simp [readBlock]
  | succ n ih =>
    simp only [readBlock, memRead]
    by_cases ha : a < Config.memSize
    · simp only [ha, if_true, ih (a + 1)]
      by_cases h : a + (n + 1) ≤ Config.memSize
      · have h1 : n = 0 ∨ a + 1 + n ≤ Config.memSize := by omega
        simp only [h1, h, or_true, if_true]
        simp [List.range_succ_eq_map, Function.comp_def, Nat.add_assoc, Nat.add_comm 1]
      · have h1 : ¬ (n = 0 ∨ a + 1 + n ≤ Config.memSize) := by omega
        have h2 : ¬ (n + 1 = 0 ∨ a + (n + 1) ≤ Config.memSize) := by omega
        have h3 : max (a + 1) Config.memSize = max a Config.memSize := by omega
        simp only [h1, h2, if_false, h3]
    · have h2 : ¬ (n + 1 = 0 ∨ a + (n + 1) ≤ Config.memSize) := by omega
      have h3 : max a Config.memSize = a := by omega
      simp only [ha, h2, if_false, h3]

/-- A block write is a copy when it is empty or all its addresses exist, and otherwise answers the lowest address that
does not (rules R22, R24, R82). -/
theorem writeBlock_eq (m : Memory) (a : Nat) (bs : List Byte) :
    writeBlock m a bs =
      if bs = [] ∨ a + bs.length ≤ Config.memSize then .ok (Memory.store m a bs)
      else .error (max a Config.memSize) := by
  induction bs generalizing m a with
  | nil => simp [writeBlock, Memory.store]
  | cons b bs ih =>
    simp only [writeBlock, memWrite, Memory.store, List.length_cons]
    by_cases ha : a < Config.memSize
    · simp only [ha, if_true, ih (m.write a b) (a + 1)]
      by_cases h : a + (bs.length + 1) ≤ Config.memSize
      · have h1 : bs = [] ∨ a + 1 + bs.length ≤ Config.memSize := by omega
        simp only [h1, h, or_true, if_true]
      · have h1 : ¬ (bs = [] ∨ a + 1 + bs.length ≤ Config.memSize) := by
          rintro (rfl | h1)
          · simp only [List.length_nil] at h; omega
          · omega
        have h2 : ¬ (b :: bs = [] ∨ a + (bs.length + 1) ≤ Config.memSize) := by
          rintro (h' | h')
          · cases h'
          · exact h h'
        have h3 : max (a + 1) Config.memSize = max a Config.memSize := by omega
        simp only [h1, h2, if_false, h3]
    · have h2 : ¬ (b :: bs = [] ∨ a + (bs.length + 1) ≤ Config.memSize) := by
        rintro (h | h)
        · cases h
        · omega
      have h3 : max a Config.memSize = a := by omega
      simp only [ha, h2, if_false, h3]

/-- A block write that answers a memory keeps the canonical form. -/
theorem writeBlock_keeps_wf {bs : List Byte} (h : m.wf) (hw : writeBlock m a bs = .ok m') : m'.wf := by
  rw [writeBlock_eq] at hw
  split at hw
  · next hb =>
    obtain rfl : Memory.store m a bs = m' := by simpa using hw
    rcases hb with rfl | hb
    · exact h
    · exact Memory.wf_store h bs hb
  · cases hw

/-- Consecutive register writes, register by register (rule R68). -/
theorem getElem_writeRegs (v : Vector Byte 16) (k : Nat) (bs : List Byte) (x : RegIdx) :
    (writeRegs v k bs)[x] = if h : k ≤ x.val ∧ x.val < k + bs.length then bs[x.val - k]'(by omega) else v[x] := by
  induction bs generalizing v k with
  | nil => simp [writeRegs]
  | cons b bs ih =>
    simp only [writeRegs, ih, List.length_cons]
    by_cases h1 : k + 1 ≤ x.val ∧ x.val < k + 1 + bs.length
    · have h2 : k ≤ x.val ∧ x.val < k + (bs.length + 1) := by omega
      have h3 : x.val - k = (x.val - (k + 1)) + 1 := by omega
      simp [h1, h2, h3]
    · by_cases hb : k = x.val
      · subst hb; simp
      · have h2 : ¬ (k ≤ x.val ∧ x.val < k + (bs.length + 1)) := by omega
        rw [dif_neg h1, dif_neg h2]
        simp [Fin.getElem_fin, hb]

end Sys2Proof.Machine
end

