-- ==== Sys2Proof/Laws/PerInstr.lean ====
section
/-! SUPPORT. One lemma for each instruction, about the instruction as syntax: its operands fit their fields, and its opcode has the fixed bits of its own row (rules R34, R36). -/

namespace Sys2Proof.Laws.EncodesRow

/-- The instruction's operands fit, and its row selects its opcode. -/
def Statement (i : Instr) : Prop := i.wellFormed = true ∧ i.row.selectedBy (encode i) = true

/-- A register number fits 4 bits. -/
theorem fits_nibble (x : Fin 16) : (Operand.mk x.val 4).fits = true :=
  decide_eq_true x.isLt

/-- A byte fits 8 bits. -/
theorem fits_byte (nn : Byte) : (Operand.mk nn.toNat 8).fits = true :=
  decide_eq_true nn.isLt

/-- An address immediate fits 12 bits. -/
theorem fits_imm12 (nnn : Imm12) : (Operand.mk nnn.toNat 12).fits = true :=
  decide_eq_true nnn.isLt

/-- A row that fixes n1 alone selects every word with that n1. -/
theorem selected_n1 {m : String} {op p : Word} {n1 : Nat} (hp : p = BitVec.ofNat 4 n1 ++ 0#12)
    (h : op.toNat / 4096 % 16 = n1 % 16) : (Row.mk m 0xF000#16 p).selectedBy op = true := by
  have e : op.extractLsb' 12 4 = BitVec.ofNat 4 n1 :=
    BitVec.eq_of_toNat_eq (by simpa [Nat.shiftRight_eq_div_pow] using h)
  simp [Row.selectedBy, and_F000, hp, e]

/-- A row that fixes n1 and n4 selects every word that has both. -/
theorem selected_n1_n4 {m : String} {op p : Word} {n1 n4 : Nat} (hp : p = BitVec.ofNat 4 n1 ++ (0#8 ++ BitVec.ofNat 4 n4))
    (h : op.toNat / 4096 % 16 = n1 % 16) (h4 : op.toNat % 16 = n4 % 16) :
    (Row.mk m 0xF00F#16 p).selectedBy op = true := by
  have e : op.extractLsb' 12 4 = BitVec.ofNat 4 n1 :=
    BitVec.eq_of_toNat_eq (by simpa [Nat.shiftRight_eq_div_pow] using h)
  have e4 : op.extractLsb' 0 4 = BitVec.ofNat 4 n4 := BitVec.eq_of_toNat_eq (by simpa using h4)
  simp only [Row.selectedBy, and_F00F, hp, e, e4, beq_self_eq_true]

/-- A row that fixes n1 and NN selects every word that has both. -/
theorem selected_n1_nn {m : String} {op p : Word} {n1 nn : Nat} (hp : p = BitVec.ofNat 4 n1 ++ (0#4 ++ BitVec.ofNat 8 nn))
    (h : op.toNat / 4096 % 16 = n1 % 16) (h8 : op.toNat % 256 = nn % 256) :
    (Row.mk m 0xF0FF#16 p).selectedBy op = true := by
  have e : op.extractLsb' 12 4 = BitVec.ofNat 4 n1 :=
    BitVec.eq_of_toNat_eq (by simpa [Nat.shiftRight_eq_div_pow] using h)
  have e8 : op.extractLsb' 0 8 = BitVec.ofNat 8 nn := BitVec.eq_of_toNat_eq (by simpa using h8)
  simp only [Row.selectedBy, and_F0FF, hp, e, e8, beq_self_eq_true]

/-- The opcodes n1, NNN are selected by their n1. -/
theorem nnn_selected {m : String} {p : Word} {n1 : Nat} (hn : n1 < 16) (hp : p = BitVec.ofNat 4 n1 ++ 0#12) (nnn : Imm12) :
    (Row.mk m 0xF000#16 p).selectedBy (encodeNNN n1 nnn) = true := by
  refine selected_n1 hp ?_
  have := nnn.isLt
  rw [encodeNNN_toNat hn]
  omega

/-- The opcodes n1, X, NN are selected by their n1. -/
theorem xnn_selected {m : String} {p : Word} {n1 : Nat} (hn : n1 < 16) (hp : p = BitVec.ofNat 4 n1 ++ 0#12) (x : RegIdx)
    (nn : Byte) : (Row.mk m 0xF000#16 p).selectedBy (encodeXNN n1 x nn) = true := by
  refine selected_n1 hp ?_
  have := nn.isLt
  rw [encodeXNN_toNat hn]
  omega

/-- The opcodes n1, X, with a fixed NN are selected by both. -/
theorem xsub_selected {m : String} {p : Word} {n1 : Nat} (nn : Byte) (hn : n1 < 16)
    (hp : p = BitVec.ofNat 4 n1 ++ (0#4 ++ BitVec.ofNat 8 nn.toNat)) (x : RegIdx) :
    (Row.mk m 0xF0FF#16 p).selectedBy (encodeXNN n1 x nn) = true := by
  have := nn.isLt
  refine selected_n1_nn hp ?_ ?_ <;> rw [encodeXNN_toNat hn] <;> omega

/-- The opcodes n1, X, Y, with a fixed n4 are selected by both. -/
theorem xy_selected {m : String} {p : Word} {n1 : Nat} (n4 : Fin 16) (hn : n1 < 16)
    (hp : p = BitVec.ofNat 4 n1 ++ (0#8 ++ BitVec.ofNat 4 n4.val)) (x y : RegIdx) :
    (Row.mk m 0xF00F#16 p).selectedBy (encodeXYN n1 x y n4) = true := by
  refine selected_n1_n4 hp ?_ ?_ <;> rw [encodeXYN_toNat hn] <;> omega

/-- The opcodes n1, X, Y, N are selected by their n1. -/
theorem xyn_selected {m : String} {p : Word} {n1 : Nat} (hn : n1 < 16) (hp : p = BitVec.ofNat 4 n1 ++ 0#12) (x y : RegIdx)
    (n : Fin 16) : (Row.mk m 0xF000#16 p).selectedBy (encodeXYN n1 x y n) = true := by
  refine selected_n1 hp ?_
  rw [encodeXYN_toNat hn]
  omega

theorem nop : Statement (.nop) :=
  ⟨by simp [Instr.wellFormed, Instr.operands], by decide⟩

theorem cls : Statement (.cls) :=
  ⟨by simp [Instr.wellFormed, Instr.operands], by decide⟩

theorem ret : Statement (.ret) :=
  ⟨by simp [Instr.wellFormed, Instr.operands], by decide⟩

theorem jp (nnn : Imm12) : Statement (.jp nnn) :=
  ⟨by simp [Instr.wellFormed, Instr.operands, fits_imm12 nnn], nnn_selected (by decide) (by decide) nnn⟩

theorem call (nnn : Imm12) : Statement (.call nnn) :=
  ⟨by simp [Instr.wellFormed, Instr.operands, fits_imm12 nnn], nnn_selected (by decide) (by decide) nnn⟩

theorem seImm (x : RegIdx) (nn : Byte) : Statement (.seImm x nn) :=
  ⟨by simp [Instr.wellFormed, Instr.operands, fits_nibble x, fits_byte nn], xnn_selected (by decide) (by decide) x nn⟩

theorem sneImm (x : RegIdx) (nn : Byte) : Statement (.sneImm x nn) :=
  ⟨by simp [Instr.wellFormed, Instr.operands, fits_nibble x, fits_byte nn], xnn_selected (by decide) (by decide) x nn⟩

theorem seReg (x : RegIdx) (y : RegIdx) : Statement (.seReg x y) :=
  ⟨by simp [Instr.wellFormed, Instr.operands, fits_nibble x, fits_nibble y], xy_selected 0x0 (by decide) (by decide) x y⟩

theorem ldImm (x : RegIdx) (nn : Byte) : Statement (.ldImm x nn) :=
  ⟨by simp [Instr.wellFormed, Instr.operands, fits_nibble x, fits_byte nn], xnn_selected (by decide) (by decide) x nn⟩

theorem addImm (x : RegIdx) (nn : Byte) : Statement (.addImm x nn) :=
  ⟨by simp [Instr.wellFormed, Instr.operands, fits_nibble x, fits_byte nn], xnn_selected (by decide) (by decide) x nn⟩

theorem ldReg (x : RegIdx) (y : RegIdx) : Statement (.ldReg x y) :=
  ⟨by simp [Instr.wellFormed, Instr.operands, fits_nibble x, fits_nibble y], xy_selected 0x0 (by decide) (by decide) x y⟩

theorem orReg (x : RegIdx) (y : RegIdx) : Statement (.orReg x y) :=
  ⟨by simp [Instr.wellFormed, Instr.operands, fits_nibble x, fits_nibble y], xy_selected 0x1 (by decide) (by decide) x y⟩

theorem andReg (x : RegIdx) (y : RegIdx) : Statement (.andReg x y) :=
  ⟨by simp [Instr.wellFormed, Instr.operands, fits_nibble x, fits_nibble y], xy_selected 0x2 (by decide) (by decide) x y⟩

theorem xorReg (x : RegIdx) (y : RegIdx) : Statement (.xorReg x y) :=
  ⟨by simp [Instr.wellFormed, Instr.operands, fits_nibble x, fits_nibble y], xy_selected 0x3 (by decide) (by decide) x y⟩

theorem addReg (x : RegIdx) (y : RegIdx) : Statement (.addReg x y) :=
  ⟨by simp [Instr.wellFormed, Instr.operands, fits_nibble x, fits_nibble y], xy_selected 0x4 (by decide) (by decide) x y⟩

theorem subReg (x : RegIdx) (y : RegIdx) : Statement (.subReg x y) :=
  ⟨by simp [Instr.wellFormed, Instr.operands, fits_nibble x, fits_nibble y], xy_selected 0x5 (by decide) (by decide) x y⟩

theorem shrReg (x : RegIdx) (y : RegIdx) : Statement (.shrReg x y) :=
  ⟨by simp [Instr.wellFormed, Instr.operands, fits_nibble x, fits_nibble y], xy_selected 0x6 (by decide) (by decide) x y⟩

theorem subnReg (x : RegIdx) (y : RegIdx) : Statement (.subnReg x y) :=
  ⟨by simp [Instr.wellFormed, Instr.operands, fits_nibble x, fits_nibble y], xy_selected 0x7 (by decide) (by decide) x y⟩

theorem shlReg (x : RegIdx) (y : RegIdx) : Statement (.shlReg x y) :=
  ⟨by simp [Instr.wellFormed, Instr.operands, fits_nibble x, fits_nibble y], xy_selected 0xE (by decide) (by decide) x y⟩

theorem sneReg (x : RegIdx) (y : RegIdx) : Statement (.sneReg x y) :=
  ⟨by simp [Instr.wellFormed, Instr.operands, fits_nibble x, fits_nibble y], xy_selected 0x0 (by decide) (by decide) x y⟩

theorem ldI (nnn : Imm12) : Statement (.ldI nnn) :=
  ⟨by simp [Instr.wellFormed, Instr.operands, fits_imm12 nnn], nnn_selected (by decide) (by decide) nnn⟩

theorem jpV0 (nnn : Imm12) : Statement (.jpV0 nnn) :=
  ⟨by simp [Instr.wellFormed, Instr.operands, fits_imm12 nnn], nnn_selected (by decide) (by decide) nnn⟩

theorem rnd (x : RegIdx) (nn : Byte) : Statement (.rnd x nn) :=
  ⟨by simp [Instr.wellFormed, Instr.operands, fits_nibble x, fits_byte nn], xnn_selected (by decide) (by decide) x nn⟩

theorem drw (x : RegIdx) (y : RegIdx) (n : Fin 16) : Statement (.drw x y n) :=
  ⟨by simp [Instr.wellFormed, Instr.operands, fits_nibble x, fits_nibble y, fits_nibble n], xyn_selected (by decide) (by decide) x y n⟩

theorem skp (x : RegIdx) : Statement (.skp x) :=
  ⟨by simp [Instr.wellFormed, Instr.operands, fits_nibble x], xsub_selected 0x9E#8 (by decide) (by decide) x⟩

theorem sknp (x : RegIdx) : Statement (.sknp x) :=
  ⟨by simp [Instr.wellFormed, Instr.operands, fits_nibble x], xsub_selected 0xA1#8 (by decide) (by decide) x⟩

theorem ldVxDt (x : RegIdx) : Statement (.ldVxDt x) :=
  ⟨by simp [Instr.wellFormed, Instr.operands, fits_nibble x], xsub_selected 0x07#8 (by decide) (by decide) x⟩

theorem ldVxKey (x : RegIdx) : Statement (.ldVxKey x) :=
  ⟨by simp [Instr.wellFormed, Instr.operands, fits_nibble x], xsub_selected 0x0A#8 (by decide) (by decide) x⟩

theorem ldDtVx (x : RegIdx) : Statement (.ldDtVx x) :=
  ⟨by simp [Instr.wellFormed, Instr.operands, fits_nibble x], xsub_selected 0x15#8 (by decide) (by decide) x⟩

theorem ldStVx (x : RegIdx) : Statement (.ldStVx x) :=
  ⟨by simp [Instr.wellFormed, Instr.operands, fits_nibble x], xsub_selected 0x18#8 (by decide) (by decide) x⟩

theorem addI (x : RegIdx) : Statement (.addI x) :=
  ⟨by simp [Instr.wellFormed, Instr.operands, fits_nibble x], xsub_selected 0x1E#8 (by decide) (by decide) x⟩

theorem ldFont (x : RegIdx) : Statement (.ldFont x) :=
  ⟨by simp [Instr.wellFormed, Instr.operands, fits_nibble x], xsub_selected 0x29#8 (by decide) (by decide) x⟩

theorem bcd (x : RegIdx) : Statement (.bcd x) :=
  ⟨by simp [Instr.wellFormed, Instr.operands, fits_nibble x], xsub_selected 0x33#8 (by decide) (by decide) x⟩

theorem stRegs (x : RegIdx) : Statement (.stRegs x) :=
  ⟨by simp [Instr.wellFormed, Instr.operands, fits_nibble x], xsub_selected 0x55#8 (by decide) (by decide) x⟩

theorem ldRegs (x : RegIdx) : Statement (.ldRegs x) :=
  ⟨by simp [Instr.wellFormed, Instr.operands, fits_nibble x], xsub_selected 0x65#8 (by decide) (by decide) x⟩

end Sys2Proof.Laws.EncodesRow
end

