-- ==== Sys2Proof/Laws/State.lean ====
section
/-! SUPPORT. One lemma for each field that each update of the state leaves alone or writes, true by unfolding once, so that no later proof unfolds a record update. -/

namespace Sys2Proof.Machine

@[simp] theorem State.writeV_pc (s : State) (x : RegIdx) (b : Byte) : (s.writeV x b).pc = s.pc := rfl
@[simp] theorem State.writeV_i (s : State) (x : RegIdx) (b : Byte) : (s.writeV x b).i = s.i := rfl
@[simp] theorem State.writeV_stack (s : State) (x : RegIdx) (b : Byte) : (s.writeV x b).stack = s.stack := rfl
@[simp] theorem State.writeV_sp (s : State) (x : RegIdx) (b : Byte) : (s.writeV x b).sp = s.sp := rfl
@[simp] theorem State.writeV_dt (s : State) (x : RegIdx) (b : Byte) : (s.writeV x b).dt = s.dt := rfl
@[simp] theorem State.writeV_st (s : State) (x : RegIdx) (b : Byte) : (s.writeV x b).st = s.st := rfl
@[simp] theorem State.writeV_keys (s : State) (x : RegIdx) (b : Byte) : (s.writeV x b).keys = s.keys := rfl
@[simp] theorem State.writeV_display (s : State) (x : RegIdx) (b : Byte) : (s.writeV x b).display = s.display := rfl
@[simp] theorem State.writeV_mem (s : State) (x : RegIdx) (b : Byte) : (s.writeV x b).mem = s.mem := rfl
@[simp] theorem State.writeV_fault (s : State) (x : RegIdx) (b : Byte) : (s.writeV x b).fault = s.fault := rfl
@[simp] theorem State.writeV_draws (s : State) (x : RegIdx) (b : Byte) : (s.writeV x b).draws = s.draws := rfl

@[simp] theorem State.jump_v (s : State) (a : Word) : (s.jump a).v = s.v := rfl
@[simp] theorem State.jump_i (s : State) (a : Word) : (s.jump a).i = s.i := rfl
@[simp] theorem State.jump_stack (s : State) (a : Word) : (s.jump a).stack = s.stack := rfl
@[simp] theorem State.jump_sp (s : State) (a : Word) : (s.jump a).sp = s.sp := rfl
@[simp] theorem State.jump_dt (s : State) (a : Word) : (s.jump a).dt = s.dt := rfl
@[simp] theorem State.jump_st (s : State) (a : Word) : (s.jump a).st = s.st := rfl
@[simp] theorem State.jump_keys (s : State) (a : Word) : (s.jump a).keys = s.keys := rfl
@[simp] theorem State.jump_display (s : State) (a : Word) : (s.jump a).display = s.display := rfl
@[simp] theorem State.jump_mem (s : State) (a : Word) : (s.jump a).mem = s.mem := rfl
@[simp] theorem State.jump_fault (s : State) (a : Word) : (s.jump a).fault = s.fault := rfl
@[simp] theorem State.jump_draws (s : State) (a : Word) : (s.jump a).draws = s.draws := rfl

@[simp] theorem State.advance_v (s : State) : (s.advance).v = s.v := rfl
@[simp] theorem State.advance_i (s : State) : (s.advance).i = s.i := rfl
@[simp] theorem State.advance_stack (s : State) : (s.advance).stack = s.stack := rfl
@[simp] theorem State.advance_sp (s : State) : (s.advance).sp = s.sp := rfl
@[simp] theorem State.advance_dt (s : State) : (s.advance).dt = s.dt := rfl
@[simp] theorem State.advance_st (s : State) : (s.advance).st = s.st := rfl
@[simp] theorem State.advance_keys (s : State) : (s.advance).keys = s.keys := rfl
@[simp] theorem State.advance_display (s : State) : (s.advance).display = s.display := rfl
@[simp] theorem State.advance_mem (s : State) : (s.advance).mem = s.mem := rfl
@[simp] theorem State.advance_fault (s : State) : (s.advance).fault = s.fault := rfl
@[simp] theorem State.advance_draws (s : State) : (s.advance).draws = s.draws := rfl

@[simp] theorem State.rewind_v (s : State) : (s.rewind).v = s.v := rfl
@[simp] theorem State.rewind_i (s : State) : (s.rewind).i = s.i := rfl
@[simp] theorem State.rewind_stack (s : State) : (s.rewind).stack = s.stack := rfl
@[simp] theorem State.rewind_sp (s : State) : (s.rewind).sp = s.sp := rfl
@[simp] theorem State.rewind_dt (s : State) : (s.rewind).dt = s.dt := rfl
@[simp] theorem State.rewind_st (s : State) : (s.rewind).st = s.st := rfl
@[simp] theorem State.rewind_keys (s : State) : (s.rewind).keys = s.keys := rfl
@[simp] theorem State.rewind_display (s : State) : (s.rewind).display = s.display := rfl
@[simp] theorem State.rewind_mem (s : State) : (s.rewind).mem = s.mem := rfl
@[simp] theorem State.rewind_fault (s : State) : (s.rewind).fault = s.fault := rfl
@[simp] theorem State.rewind_draws (s : State) : (s.rewind).draws = s.draws := rfl

@[simp] theorem State.latch_v (s : State) (c : FaultCode) (o : Option Word) (n : Nat) : (s.latch c o n).v = s.v := rfl
@[simp] theorem State.latch_pc (s : State) (c : FaultCode) (o : Option Word) (n : Nat) : (s.latch c o n).pc = s.pc := rfl
@[simp] theorem State.latch_i (s : State) (c : FaultCode) (o : Option Word) (n : Nat) : (s.latch c o n).i = s.i := rfl
@[simp] theorem State.latch_stack (s : State) (c : FaultCode) (o : Option Word) (n : Nat) : (s.latch c o n).stack = s.stack := rfl
@[simp] theorem State.latch_sp (s : State) (c : FaultCode) (o : Option Word) (n : Nat) : (s.latch c o n).sp = s.sp := rfl
@[simp] theorem State.latch_dt (s : State) (c : FaultCode) (o : Option Word) (n : Nat) : (s.latch c o n).dt = s.dt := rfl
@[simp] theorem State.latch_st (s : State) (c : FaultCode) (o : Option Word) (n : Nat) : (s.latch c o n).st = s.st := rfl
@[simp] theorem State.latch_keys (s : State) (c : FaultCode) (o : Option Word) (n : Nat) : (s.latch c o n).keys = s.keys := rfl
@[simp] theorem State.latch_display (s : State) (c : FaultCode) (o : Option Word) (n : Nat) : (s.latch c o n).display = s.display := rfl
@[simp] theorem State.latch_mem (s : State) (c : FaultCode) (o : Option Word) (n : Nat) : (s.latch c o n).mem = s.mem := rfl
@[simp] theorem State.latch_draws (s : State) (c : FaultCode) (o : Option Word) (n : Nat) : (s.latch c o n).draws = s.draws := rfl

@[simp] theorem State.skipIf_v (s : State) (c : Bool) : (s.skipIf c).v = s.v := by unfold State.skipIf; split <;> rfl
@[simp] theorem State.skipIf_i (s : State) (c : Bool) : (s.skipIf c).i = s.i := by unfold State.skipIf; split <;> rfl
@[simp] theorem State.skipIf_stack (s : State) (c : Bool) : (s.skipIf c).stack = s.stack := by unfold State.skipIf; split <;> rfl
@[simp] theorem State.skipIf_sp (s : State) (c : Bool) : (s.skipIf c).sp = s.sp := by unfold State.skipIf; split <;> rfl
@[simp] theorem State.skipIf_dt (s : State) (c : Bool) : (s.skipIf c).dt = s.dt := by unfold State.skipIf; split <;> rfl
@[simp] theorem State.skipIf_st (s : State) (c : Bool) : (s.skipIf c).st = s.st := by unfold State.skipIf; split <;> rfl
@[simp] theorem State.skipIf_keys (s : State) (c : Bool) : (s.skipIf c).keys = s.keys := by unfold State.skipIf; split <;> rfl
@[simp] theorem State.skipIf_display (s : State) (c : Bool) : (s.skipIf c).display = s.display := by unfold State.skipIf; split <;> rfl
@[simp] theorem State.skipIf_mem (s : State) (c : Bool) : (s.skipIf c).mem = s.mem := by unfold State.skipIf; split <;> rfl
@[simp] theorem State.skipIf_fault (s : State) (c : Bool) : (s.skipIf c).fault = s.fault := by unfold State.skipIf; split <;> rfl
@[simp] theorem State.skipIf_draws (s : State) (c : Bool) : (s.skipIf c).draws = s.draws := by unfold State.skipIf; split <;> rfl

@[simp] theorem State.draw_v (s : State) : (s.draw.2).v = s.v := rfl
@[simp] theorem State.draw_pc (s : State) : (s.draw.2).pc = s.pc := rfl
@[simp] theorem State.draw_i (s : State) : (s.draw.2).i = s.i := rfl
@[simp] theorem State.draw_stack (s : State) : (s.draw.2).stack = s.stack := rfl
@[simp] theorem State.draw_sp (s : State) : (s.draw.2).sp = s.sp := rfl
@[simp] theorem State.draw_dt (s : State) : (s.draw.2).dt = s.dt := rfl
@[simp] theorem State.draw_st (s : State) : (s.draw.2).st = s.st := rfl
@[simp] theorem State.draw_keys (s : State) : (s.draw.2).keys = s.keys := rfl
@[simp] theorem State.draw_display (s : State) : (s.draw.2).display = s.display := rfl
@[simp] theorem State.draw_mem (s : State) : (s.draw.2).mem = s.mem := rfl
@[simp] theorem State.draw_fault (s : State) : (s.draw.2).fault = s.fault := rfl

@[simp] theorem State.writeResultFlag_pc (s : State) (x : RegIdx) (r : Byte) (f : Bool) : (s.writeResultFlag x r f).pc = s.pc := rfl
@[simp] theorem State.writeResultFlag_i (s : State) (x : RegIdx) (r : Byte) (f : Bool) : (s.writeResultFlag x r f).i = s.i := rfl
@[simp] theorem State.writeResultFlag_stack (s : State) (x : RegIdx) (r : Byte) (f : Bool) : (s.writeResultFlag x r f).stack = s.stack := rfl
@[simp] theorem State.writeResultFlag_sp (s : State) (x : RegIdx) (r : Byte) (f : Bool) : (s.writeResultFlag x r f).sp = s.sp := rfl
@[simp] theorem State.writeResultFlag_dt (s : State) (x : RegIdx) (r : Byte) (f : Bool) : (s.writeResultFlag x r f).dt = s.dt := rfl
@[simp] theorem State.writeResultFlag_st (s : State) (x : RegIdx) (r : Byte) (f : Bool) : (s.writeResultFlag x r f).st = s.st := rfl
@[simp] theorem State.writeResultFlag_keys (s : State) (x : RegIdx) (r : Byte) (f : Bool) : (s.writeResultFlag x r f).keys = s.keys := rfl
@[simp] theorem State.writeResultFlag_display (s : State) (x : RegIdx) (r : Byte) (f : Bool) : (s.writeResultFlag x r f).display = s.display := rfl
@[simp] theorem State.writeResultFlag_mem (s : State) (x : RegIdx) (r : Byte) (f : Bool) : (s.writeResultFlag x r f).mem = s.mem := rfl
@[simp] theorem State.writeResultFlag_fault (s : State) (x : RegIdx) (r : Byte) (f : Bool) : (s.writeResultFlag x r f).fault = s.fault := rfl
@[simp] theorem State.writeResultFlag_draws (s : State) (x : RegIdx) (r : Byte) (f : Bool) : (s.writeResultFlag x r f).draws = s.draws := rfl

@[simp] theorem State.setKey_v (s : State) (k : Fin 16) (b : Bool) : (s.setKey k b).v = s.v := rfl
@[simp] theorem State.setKey_pc (s : State) (k : Fin 16) (b : Bool) : (s.setKey k b).pc = s.pc := rfl
@[simp] theorem State.setKey_i (s : State) (k : Fin 16) (b : Bool) : (s.setKey k b).i = s.i := rfl
@[simp] theorem State.setKey_stack (s : State) (k : Fin 16) (b : Bool) : (s.setKey k b).stack = s.stack := rfl
@[simp] theorem State.setKey_sp (s : State) (k : Fin 16) (b : Bool) : (s.setKey k b).sp = s.sp := rfl
@[simp] theorem State.setKey_dt (s : State) (k : Fin 16) (b : Bool) : (s.setKey k b).dt = s.dt := rfl
@[simp] theorem State.setKey_st (s : State) (k : Fin 16) (b : Bool) : (s.setKey k b).st = s.st := rfl
@[simp] theorem State.setKey_display (s : State) (k : Fin 16) (b : Bool) : (s.setKey k b).display = s.display := rfl
@[simp] theorem State.setKey_mem (s : State) (k : Fin 16) (b : Bool) : (s.setKey k b).mem = s.mem := rfl
@[simp] theorem State.setKey_fault (s : State) (k : Fin 16) (b : Bool) : (s.setKey k b).fault = s.fault := rfl
@[simp] theorem State.setKey_draws (s : State) (k : Fin 16) (b : Bool) : (s.setKey k b).draws = s.draws := rfl

@[simp] theorem State.tickTimers_v (s : State) : (s.tickTimers.1).v = s.v := rfl
@[simp] theorem State.tickTimers_pc (s : State) : (s.tickTimers.1).pc = s.pc := rfl
@[simp] theorem State.tickTimers_i (s : State) : (s.tickTimers.1).i = s.i := rfl
@[simp] theorem State.tickTimers_stack (s : State) : (s.tickTimers.1).stack = s.stack := rfl
@[simp] theorem State.tickTimers_sp (s : State) : (s.tickTimers.1).sp = s.sp := rfl
@[simp] theorem State.tickTimers_keys (s : State) : (s.tickTimers.1).keys = s.keys := rfl
@[simp] theorem State.tickTimers_display (s : State) : (s.tickTimers.1).display = s.display := rfl
@[simp] theorem State.tickTimers_mem (s : State) : (s.tickTimers.1).mem = s.mem := rfl
@[simp] theorem State.tickTimers_fault (s : State) : (s.tickTimers.1).fault = s.fault := rfl
@[simp] theorem State.tickTimers_draws (s : State) : (s.tickTimers.1).draws = s.draws := rfl

@[simp] theorem State.jump_pc (s : State) (a : Word) : (s.jump a).pc = a := rfl
@[simp] theorem State.advance_pc (s : State) : s.advance.pc = s.pc + 2#16 := rfl
@[simp] theorem State.rewind_pc (s : State) : s.rewind.pc = s.pc - 2#16 := rfl
@[simp] theorem State.latch_fault (s : State) (c : FaultCode) (o : Option Word) (n : Nat) :
    (s.latch c o n).fault = some ⟨c, s.pc, o, n⟩ := rfl
@[simp] theorem State.skipIf_pc (s : State) (c : Bool) : (s.skipIf c).pc = if c then s.pc + 2#16 else s.pc := by
  unfold State.skipIf; split <;> rfl
@[simp] theorem State.draw_draws (s : State) : s.draw.2.draws = s.draws + 1 := rfl
@[simp] theorem State.draw_byte (s : State) : s.draw.1 = Config.randomByte s.draws := rfl
@[simp] theorem State.tickTimers_dt (s : State) : s.tickTimers.1.dt = countDown s.dt := rfl
@[simp] theorem State.tickTimers_st (s : State) : s.tickTimers.1.st = countDown s.st := rfl
@[simp] theorem State.restart_draws (s : State) : s.restart.draws = s.draws := rfl
@[simp] theorem State.restart_fault (s : State) : s.restart.fault = none := rfl

/-- Going back over what fetch advanced gives the state before fetch (rules R75, R83). -/
@[simp] theorem State.rewind_advance (s : State) : s.advance.rewind = s := by
  simp [State.rewind, State.advance]

/-! ### Registers -/

/-- A register reads as it was last written (rule R5). -/
@[simp] theorem State.readV_writeV_same (s : State) (x : RegIdx) (b : Byte) : (s.writeV x b).readV x = b := by
  simp [State.readV, State.writeV]

/-- A write to one register leaves the others (rule R5). -/
theorem State.readV_writeV_other (s : State) {x y : RegIdx} (b : Byte) (h : y ≠ x) :
    (s.writeV x b).readV y = s.readV y := by
  have : x.val ≠ y.val := fun e => h (Fin.ext e.symm)
  simp [State.readV, State.writeV, this]

/-- Any register after a write to one of them. -/
theorem State.readV_writeV (s : State) (x y : RegIdx) (b : Byte) :
    (s.writeV x b).readV y = if y = x then b else s.readV y := by
  by_cases h : y = x
  · subst h; simp
  · simp [h, State.readV_writeV_other]

/-- Registers are read from the register file alone. -/
theorem State.readV_congr {s t : State} (h : t.v = s.v) (x : RegIdx) : t.readV x = s.readV x := by
  simp [State.readV, h]

/-- After a result and a flag are written, VF holds the flag, whatever the result's register is (rule R50). -/
@[simp] theorem State.readV_writeResultFlag_vf (s : State) (x : RegIdx) (r : Byte) (f : Bool) :
    (s.writeResultFlag x r f).readV vf = flagByte f := by
  simp [State.writeResultFlag]

/-- After a result and a flag are written, the result is in its register unless that is VF (rule R50). -/
theorem State.readV_writeResultFlag_result (s : State) {x : RegIdx} (r : Byte) (f : Bool) (h : x ≠ vf) :
    (s.writeResultFlag x r f).readV x = r := by
  simp [State.writeResultFlag, State.readV_writeV_other _ _ h]

/-- After a result and a flag are written, every other register is as before (rule R50). -/
theorem State.readV_writeResultFlag_other (s : State) {x y : RegIdx} (r : Byte) (f : Bool) (h : y ≠ x) (hf : y ≠ vf) :
    (s.writeResultFlag x r f).readV y = s.readV y := by
  simp [State.writeResultFlag, State.readV_writeV_other _ _ hf, State.readV_writeV_other _ _ h]

end Sys2Proof.Machine
end

