-- ==== Sys2Proof/Laws/Tick.lean ====
section
/-! SUPPORT. What the shared operations over the whole state can do, each said once: taking a fault, a store at I, a key test, fetch, and a step. -/

namespace Sys2Proof.Machine

/-- Taking a fault latches it in the state before the tick (rules R80, R83, R84). -/
theorem takeFault_eq (i : Instr) (c : FaultCode) (n : Nat) (s : State) :
    takeFault i c n s =
      .next { s with pc := s.pc - 2#16, fault := some ⟨c, s.pc - 2#16, some (encode i), n⟩ } := rfl

/-- A store at I writes all its bytes or faults on the lowest address out of range (rules R22, R24, R82). -/
theorem storeAtI_eq (i : Instr) (bs : List Byte) (s : State) :
    storeAtI i bs s =
      if bs = [] ∨ s.i.toNat + bs.length ≤ Config.memSize then .next { s with mem := Memory.store s.mem s.i.toNat bs }
      else takeFault i .memoryOutOfRange (max s.i.toNat Config.memSize) s := by
  unfold storeAtI State.dataAddr
  by_cases h : bs = [] ∨ s.i.toNat + bs.length ≤ Config.memSize
  · have hw : writeBlock s.mem s.i.toNat bs = .ok (Memory.store s.mem s.i.toNat bs) := by rw [writeBlock_eq, if_pos h]
    rw [if_pos h, hw]
  · have hw : writeBlock s.mem s.i.toNat bs = .error (max s.i.toNat Config.memSize) := by rw [writeBlock_eq, if_neg h]
    rw [if_neg h, hw]

/-- A load from I reads all its bytes into V0 to VX or faults on the lowest address out of range (rules R22, R68, R82). -/
theorem execLdRegs_eq (x : RegIdx) (s : State) :
    execLdRegs x s =
      if s.i.toNat + (x.val + 1) ≤ Config.memSize then .next { s with v := writeRegs s.v 0 (s.bytesAtI (x.val + 1)) }
      else takeFault (.ldRegs x) .memoryOutOfRange (max s.i.toNat Config.memSize) s := by
  unfold execLdRegs State.dataAddr
  by_cases h : s.i.toNat + (x.val + 1) ≤ Config.memSize
  · have hr : readBlock s.mem s.i.toNat (x.val + 1) = .ok (s.bytesAtI (x.val + 1)) := by
      rw [readBlock_eq, if_pos (Or.inr h)]; rfl
    rw [if_pos h, hr]
  · have hr : readBlock s.mem s.i.toNat (x.val + 1) = .error (max s.i.toNat Config.memSize) := by
      rw [readBlock_eq, if_neg (by omega)]
    rw [if_neg h, hr]

/-- A draw runs over its N rows and sets VF, or faults on the lowest address out of range (rules R22, R70, R82). -/
theorem execDrw_eq (x y : RegIdx) (n : Fin 16) (s : State) :
    execDrw x y n s =
      if n.val = 0 ∨ s.i.toNat + n.val ≤ Config.memSize then
        .next ({ s with
          display := (drawRows (s.readV x).toNat (s.readV y).toNat (s.bytesAtI n.val) (s.display, false)).1 }.writeV vf
            (flagByte (drawRows (s.readV x).toNat (s.readV y).toNat (s.bytesAtI n.val) (s.display, false)).2))
      else takeFault (.drw x y n) .memoryOutOfRange (max s.i.toNat Config.memSize) s := by
  unfold execDrw State.dataAddr
  by_cases h : n.val = 0 ∨ s.i.toNat + n.val ≤ Config.memSize
  · have hr : readBlock s.mem s.i.toNat n.val = .ok (s.bytesAtI n.val) := by rw [readBlock_eq, if_pos h]; rfl
    rw [if_pos h, hr]
  · have hr : readBlock s.mem s.i.toNat n.val = .error (max s.i.toNat Config.memSize) := by rw [readBlock_eq, if_neg h]
    rw [if_neg h, hr]

/-- DXYN reads only what rule R70's Operands line names, the two coordinate registers, I, memory and the display: from two states
that agree on these, a draw that completes leaves the same display and the same VF. So the VF of a second draw is that of any
first draw from the same display, memory, I and coordinates (log entry 8). -/
theorem execDrw_reads {x y : RegIdx} {n : Fin 16} {s u : State} (hd : u.display = s.display) (hm : u.mem = s.mem)
    (hi : u.i = s.i) (hx : u.readV x = s.readV x) (hy : u.readV y = s.readV y)
    (hn : n.val = 0 ∨ s.i.toNat + n.val ≤ Config.memSize) :
    ∃ t w, execDrw x y n s = .next t ∧ execDrw x y n u = .next w ∧ w.display = t.display ∧ w.readV vf = t.readV vf := by
  have hrows : u.bytesAtI n.val = s.bytesAtI n.val := by simp [State.bytesAtI, State.dataAddr, hm, hi]
  rw [execDrw_eq, execDrw_eq, hi, if_pos hn, if_pos hn]
  exact ⟨_, _, rfl, rfl, by simp [hd, hx, hy, hrows], by simp [hd, hx, hy, hrows]⟩

/-- A key test skips or not, or faults on a key number of 16 or more (rules R72, R73). -/
theorem skipOnKey_eq (i : Instr) (x : RegIdx) (held : Bool) (s : State) :
    skipOnKey i x held s =
      if h : (s.readV x).toNat < 16 then .next (s.skipIf (s.keys[(s.readV x).toNat] == held))
      else takeFault i .keyIndexOutOfRange (s.readV x).toNat s := rfl

/-- The three answers of fetch (rule R26). -/
theorem fetch_cases (s : State) :
    (Config.memSize ≤ s.pc.toNat + 1 ∧ fetch s = .error .fetchOutOfRange) ∨
    (s.pc.toNat + 1 < Config.memSize ∧ s.pc.toNat % 2 = 1 ∧ fetch s = .error .fetchMisaligned) ∨
    (s.Fetchable ∧ fetch s = .ok s.opcodeAt) := by
  unfold fetch State.Fetchable
  by_cases h : Config.memSize ≤ s.pc.toNat + 1
  · exact Or.inl ⟨h, if_pos h⟩
  · by_cases h' : s.pc.toNat % 2 = 1
    · exact Or.inr (Or.inl ⟨by omega, h', by rw [if_neg h, if_pos h']⟩)
    · exact Or.inr (Or.inr ⟨by omega, by rw [if_neg h, if_neg h']⟩)

/-- A fetch reads the bytes that memory holds at once, high byte first (rules R25, R26, R31). -/
theorem fetchSees_of_read {m : Memory} {a : Nat} {b : Byte} (h : m.read a = b) : FetchSees m a b.toNat := by
  rintro u rfl hf
  rcases fetch_cases u with ⟨h1, -⟩ | ⟨-, h1, -⟩ | ⟨-, hq⟩
  · exact absurd hf.1 (by omega)
  · exact absurd hf.2 (by omega)
  · refine ⟨_, hq, ?_, ?_⟩ <;> rintro rfl <;> rw [State.opcodeAt, wordOfBytes_toNat]
    · have := (u.mem.read (u.pc.toNat + 1)).isLt
      rw [h]; omega
    · have := b.isLt
      rw [h]; omega

/-- A latched machine does not move (rule R84). -/
theorem step_latched {s : State} {r : FaultRecord} (h : s.fault = some r) : step s = .next s := by
  simp [step, runTick, h]

/-- Everything a step can do: stand still under a latched fault, latch a fault of fetch or of decode, or execute the
instruction fetched (rules R40, R82, R84). -/
theorem step_cases (s : State) :
    (∃ r, s.fault = some r ∧ step s = .next s) ∨
    (s.fault = none ∧ Config.memSize ≤ s.pc.toNat + 1 ∧ step s = .next (s.latch .fetchOutOfRange none s.pc.toNat)) ∨
    (s.fault = none ∧ s.pc.toNat + 1 < Config.memSize ∧ s.pc.toNat % 2 = 1 ∧
      step s = .next (s.latch .fetchMisaligned none s.pc.toNat)) ∨
    (s.fault = none ∧ s.Fetchable ∧ (∃ e, decodeWord s.opcodeAt = .error e) ∧
      step s = .next (s.latch .undefinedOpcode (some s.opcodeAt) s.opcodeAt.toNat)) ∨
    (s.fault = none ∧ ∃ i, s.Fetches i ∧ step s = exec i s.advance) := by
  cases hf : s.fault with
  | some r => exact Or.inl ⟨r, rfl, step_latched hf⟩
  | none =>
    rcases fetch_cases s with ⟨h, hq⟩ | ⟨h, h', hq⟩ | ⟨h, hq⟩
    · exact Or.inr (Or.inl ⟨rfl, h, by simp [step, runTick, hf, hq]⟩)
    · exact Or.inr (Or.inr (Or.inl ⟨rfl, h, h', by simp [step, runTick, hf, hq]⟩))
    · cases hd : decodeWord s.opcodeAt with
      | error e => exact Or.inr (Or.inr (Or.inr (Or.inl ⟨rfl, h, ⟨e, rfl⟩, by simp [step, runTick, hf, hq, hd]⟩)))
      | ok i => exact Or.inr (Or.inr (Or.inr (Or.inr ⟨rfl, i, ⟨h, hd⟩, by simp [step, runTick, hf, hq, hd]⟩)))

end Sys2Proof.Machine
end

