-- ==== Sys2Proof/Tests/Slice0.lean ====
section
/-! SUPPORT. Small tests of the model on vectors from 95_test_vectors.md and the rules' own examples, each about one step or one host call, and a witness for each statement that has hypotheses. -/

namespace Sys2Proof.Tests

open Sys2Proof Sys2Proof.Machine

/-! ### Well-formedness and decoding -/

/-- Each width check refuses the first value that does not fit (rule R34). -/
theorem test_operand_widths_refuse :
    (Operand.mk 16 4).fits = false ∧ (Operand.mk 256 8).fits = false ∧ (Operand.mk 4096 12).fits = false ∧
    (Operand.mk 15 4).fits = true ∧ (Operand.mk 255 8).fits = true ∧ (Operand.mk 4095 12).fits = true := by decide

/-- The undefined words of 95_test_vectors.md section 2.1 are no defined opcode. -/
theorem test_undefined_words_refused :
    [0x0123#16, 0x00E1#16, 0x5121#16, 0x8008#16, 0x800F#16, 0x9001#16, 0xE000#16, 0xE09F#16, 0xF000#16, 0xF0FF#16].all
      (fun op => !isDefined op && decodeWord op == .error (.undefinedOpcode op)) = true := by decide

/-- Rows 0000 to 5XY0: words written from rule R34's diagram. -/
theorem test_decode_flow :
    decodeWord 0x0000#16 = .ok .nop ∧ decodeWord 0x00E0#16 = .ok .cls ∧ decodeWord 0x00EE#16 = .ok .ret ∧
    decodeWord 0x1ABC#16 = .ok (.jp 0xABC#12) ∧ decodeWord 0x2210#16 = .ok (.call 0x210#12) ∧
    decodeWord 0x3342#16 = .ok (.seImm 3 0x42#8) ∧ decodeWord 0x4F43#16 = .ok (.sneImm 15 0x43#8) ∧
    decodeWord 0x5120#16 = .ok (.seReg 1 2) := by decide

/-- Rows 6XNN to 8XYE. -/
theorem test_decode_alu :
    decodeWord 0x6A9C#16 = .ok (.ldImm 10 0x9C#8) ∧ decodeWord 0x71FF#16 = .ok (.addImm 1 0xFF#8) ∧
    decodeWord 0x8120#16 = .ok (.ldReg 1 2) ∧ decodeWord 0x8121#16 = .ok (.orReg 1 2) ∧
    decodeWord 0x8122#16 = .ok (.andReg 1 2) ∧ decodeWord 0x8123#16 = .ok (.xorReg 1 2) ∧
    decodeWord 0x8124#16 = .ok (.addReg 1 2) ∧ decodeWord 0x8125#16 = .ok (.subReg 1 2) ∧
    decodeWord 0x8126#16 = .ok (.shrReg 1 2) ∧ decodeWord 0x8127#16 = .ok (.subnReg 1 2) ∧
    decodeWord 0x812E#16 = .ok (.shlReg 1 2) := by decide

/-- Rows 9XY0 to DXYN. -/
theorem test_decode_index_display :
    decodeWord 0x9AB0#16 = .ok (.sneReg 10 11) ∧ decodeWord 0xA300#16 = .ok (.ldI 0x300#12) ∧
    decodeWord 0xBFFF#16 = .ok (.jpV0 0xFFF#12) ∧ decodeWord 0xC30F#16 = .ok (.rnd 3 0x0F#8) ∧
    decodeWord 0xD125#16 = .ok (.drw 1 2 5) := by decide

/-- Rows EX9E to FX65. -/
theorem test_decode_keys_memory :
    decodeWord 0xE59E#16 = .ok (.skp 5) ∧ decodeWord 0xE5A1#16 = .ok (.sknp 5) ∧
    decodeWord 0xF407#16 = .ok (.ldVxDt 4) ∧ decodeWord 0xF30A#16 = .ok (.ldVxKey 3) ∧
    decodeWord 0xF315#16 = .ok (.ldDtVx 3) ∧ decodeWord 0xF218#16 = .ok (.ldStVx 2) ∧
    decodeWord 0xF21E#16 = .ok (.addI 2) ∧ decodeWord 0xF029#16 = .ok (.ldFont 0) ∧
    decodeWord 0xFA33#16 = .ok (.bcd 10) ∧ decodeWord 0xF255#16 = .ok (.stRegs 2) ∧
    decodeWord 0xFF65#16 = .ok (.ldRegs 15) := by decide

/-- The table's numbering: 0x1234 is stored high byte first and read back as a jump to 0x234 (section 2.1). -/
theorem test_table_word : decodeTableWord 16 0x1234 = some (.jp 0x234#12) ∧ decodeTableWord 16 0x5121 = none := by decide

/-! ### One step on a small state -/

/-- The reset state with an opcode at 0x200. -/
def start (op : Nat) : State := State.reset.withFetchWord 16 op

/-- The reset state with an opcode at 0x200 and some registers. -/
def startV (op : Nat) (rs : List (RegIdx × Byte)) : State := rs.foldl (fun s r => s.writeV r.1 r.2) (start op)

/-- The state after one step. -/
def after (s : State) : State :=
  match step s with
  | .next t => t
  | .fault _ => s
  | .refused _ => s

/-- `V[X]` and VF after one step. -/
def regs (x : RegIdx) (s : State) : Nat × Nat := (((after s).readV x).toNat, ((after s).readV vf).toNat)

theorem test_nop : (after (start 0x0000)).pc = 0x202#16 ∧ (after (start 0x0000)).fault = none := by decide

theorem test_cls :
    ((after { start 0x00E0 with display := Display.clear.flip 63 31 }).display.cell 63 31) = false := by decide

/-- Section 2.2: `sp` = 3, `stack[2]` = 0x456. -/
theorem test_ret :
    let t := after { start 0x00EE with sp := 3, stack := State.reset.stack.set 2 0x456#16 }
    t.sp = 2 ∧ t.pc = 0x456#16 ∧ t.stack[2] = 0x456#16 := by decide

/-- Section 2.8: an empty stack. -/
theorem test_ret_underflow :
    (after (start 0x00EE)).fault = some ⟨.stackUnderflow, 0x200#16, some 0x00EE#16, 0⟩ ∧
    (after (start 0x00EE)).pc = 0x200#16 := by decide

theorem test_jp : (after (start 0x1ABC)).pc = 0xABC#16 := by decide

/-- Section 2.2: `sp` = 15. -/
theorem test_call :
    let t := after { start 0x2ABC with sp := 15 }
    t.stack[15] = 0x202#16 ∧ t.sp = 16 ∧ t.pc = 0xABC#16 := by decide

theorem test_call_overflow :
    (after { start 0x2ABC with sp := 16 }).fault = some ⟨.stackOverflow, 0x200#16, some 0x2ABC#16, 16⟩ := by decide

theorem test_skip_immediate :
    (after (startV 0x3342 [(3, 0x42)])).pc = 0x204#16 ∧ (after (startV 0x3343 [(3, 0x42)])).pc = 0x202#16 ∧
    (after (startV 0x4342 [(3, 0x42)])).pc = 0x202#16 ∧ (after (startV 0x4343 [(3, 0x42)])).pc = 0x204#16 := by decide

theorem test_skip_register :
    (after (startV 0x5120 [(1, 9), (2, 9)])).pc = 0x204#16 ∧ (after (startV 0x9120 [(1, 9), (2, 9)])).pc = 0x202#16 ∧
    (after (startV 0x5120 [(1, 9), (2, 8)])).pc = 0x202#16 ∧ (after (startV 0x9120 [(1, 9), (2, 8)])).pc = 0x204#16 := by
  decide

/-- Section 2.2: the target passes 4095 and is not reduced. -/
theorem test_jpV0 : (after (startV 0xBFFF [(0, 0xFF)])).pc = 0x10FE#16 := by decide

theorem test_ldImm : regs 10 (startV 0x6A9C [(15, 0xAA)]) = (0x9C, 0xAA) := by decide
theorem test_addImm_wraps : regs 1 (startV 0x7101 [(1, 0xFF), (15, 0xAA)]) = (0x00, 0xAA) := by decide
theorem test_ldReg : regs 1 (startV 0x8120 [(2, 0x33), (15, 0xAA)]) = (0x33, 0xAA) := by decide
theorem test_orReg : regs 1 (startV 0x8121 [(1, 0xF0), (2, 0x0F), (15, 0xAA)]) = (0xFF, 0xAA) := by decide
theorem test_andReg : regs 1 (startV 0x8122 [(1, 0xF0), (2, 0x3C), (15, 0xAA)]) = (0x30, 0xAA) := by decide
theorem test_xorReg : regs 1 (startV 0x8123 [(1, 0xF0), (2, 0x3C), (15, 0xAA)]) = (0xCC, 0xAA) := by decide
theorem test_addReg_carries : regs 1 (startV 0x8124 [(1, 0xFF), (2, 0x01)]) = (0x00, 1) := by decide

/-- Section 2.3, aliasing: the carry overwrites the sum, and the old VF is the operand. -/
theorem test_addReg_alias :
    regs 15 (startV 0x8F14 [(15, 0x10), (1, 0xF5)]) = (1, 1) ∧ regs 1 (startV 0x81F4 [(1, 0x01), (15, 0xFF)]) = (0, 1) := by
  decide

theorem test_subReg : regs 1 (startV 0x8125 [(2, 0x01)]) = (0xFF, 0) ∧ regs 1 (startV 0x8125 [(1, 5), (2, 5)]) = (0, 1) := by
  decide

theorem test_shrReg : regs 1 (startV 0x8126 [(1, 0x03), (2, 0xFF)]) = (0x01, 1) ∧ regs 15 (startV 0x8F06 [(15, 3)]) = (1, 1) := by
  decide

theorem test_subnReg :
    regs 1 (startV 0x8127 [(1, 0x01)]) = (0xFF, 0) ∧ regs 1 (startV 0x8127 [(1, 5), (2, 0x10)]) = (0x0B, 1) := by decide

theorem test_shlReg :
    regs 1 (startV 0x810E [(1, 0x81)]) = (0x02, 1) ∧ regs 15 (startV 0x8F0E [(15, 0x40)]) = (0, 0) := by decide

/-- Rule R62: NN = 0 gives 0, whatever byte is drawn. -/
theorem test_rnd_mask_zero (s : State) (x : RegIdx) :
    exec (.rnd x 0#8) s = .next ({ s with draws := s.draws + 1 }.writeV x 0#8) := by
  simp [exec, execRnd, State.draw]

theorem test_ldI : (after (start 0xA123)).i = 0x123#16 := by decide

/-- Section 2.4: no reduction modulo 4096, and the 16-bit wrap. -/
theorem test_addI :
    (after { startV 0xF21E [(2, 1)] with i := 0x0FFF#16 }).i = 0x1000#16 ∧
    (after { startV 0xF21E [(2, 1)] with i := 0xFFFF#16 }).i = 0x0000#16 := by decide

theorem test_ldFont :
    (after (startV 0xF029 [(0, 0x0A)])).i = 0x32#16 ∧ (after (startV 0xF029 [(0, 0xFF)])).i = 0x4FB#16 := by decide

/-- Section 1, W7. -/
theorem test_bcd :
    let t := after { startV 0xFA33 [(10, 0x9C)] with i := 0x300#16 }
    t.mem.read 0x300 = 1 ∧ t.mem.read 0x301 = 5 ∧ t.mem.read 0x302 = 6 := by decide

/-- Section 2.4: the third digit has no byte, so nothing is stored. -/
theorem test_bcd_fault :
    let t := after { startV 0xF033 [(0, 123)] with i := 0xFFE#16 }
    t.fault = some ⟨.memoryOutOfRange, 0x200#16, some 0xF033#16, 0x1000⟩ ∧ t.mem.read 0xFFE = 0 := by decide

theorem test_stRegs :
    let t := after { startV 0xF255 [(0, 1), (1, 2), (2, 3), (3, 4)] with i := 0x300#16 }
    [t.mem.read 0x300, t.mem.read 0x301, t.mem.read 0x302, t.mem.read 0x303] = [1#8, 2#8, 3#8, 0#8] ∧ t.i = 0x300#16 := by
  decide

/-- Section 2.4: a font byte is overwritten, and memory stays in its canonical form (rule R21). -/
theorem test_stRegs_font : (after (start 0xF055)).mem.read 0 = 0 ∧ (after (start 0xF055)).mem.wf := by decide

theorem test_ldRegs :
    let t := after { start 0xF265 with i := 0x300#16, mem := [(0x200, 0xF2#8), (0x201, 0x65#8), (0x300, 1#8), (0x302, 6#8)] }
    t.readV 0 = 1 ∧ t.readV 1 = 0 ∧ t.readV 2 = 6 ∧ t.readV 3 = 0 := by decide

/-- Section 2.5: rows wrap at the right and bottom edges. -/
theorem test_drw_wraps :
    let t := after { startV 0xD012 [(0, 63), (1, 31)] with
      i := 0x300#16, mem := [(0x200, 0xD0#8), (0x201, 0x12#8), (0x300, 0xC0#8), (0x301, 0x80#8)] }
    [t.display.cellAt 2047, t.display.cellAt 1984, t.display.cellAt 63, t.display.cellAt 0] = [true, true, true, false] ∧
    t.readV vf = 0 := by decide

/-- Section 2.5: one collision is enough, and X = F uses the old VF as a coordinate. -/
theorem test_drw_collision :
    let t := after { startV 0xDF11 [(15, 2)] with
      i := 0x300#16, mem := [(0x200, 0xDF#8), (0x201, 0x11#8), (0x300, 0xC0#8)], display := Display.clear.flip 2 0 }
    t.display.cellAt 2 = false ∧ t.display.cellAt 3 = true ∧ t.readV vf = 1 := by decide

theorem test_key_skips :
    let s := { startV 0xE59E [(5, 10)] with keys := State.reset.keys.set 10 true }
    let u := { startV 0xE5A1 [(5, 10)] with keys := State.reset.keys.set 10 true }
    (after s).pc = 0x204#16 ∧ (after u).pc = 0x202#16 := by decide

theorem test_key_skip_fault :
    (after (startV 0xE59E [(5, 16)])).fault = some ⟨.keyIndexOutOfRange, 0x200#16, some 0xE59E#16, 16⟩ ∧
    (after (startV 0xE5A1 [(5, 16)])).fault = some ⟨.keyIndexOutOfRange, 0x200#16, some 0xE5A1#16, 16⟩ := by decide

theorem test_ldVxDt : (after { start 0xF407 with dt := 0x3C#8 }).readV 4 = 0x3C#8 := by decide

/-- Section 2.6: the lowest held key. -/
theorem test_ldVxKey :
    let t := after { start 0xF30A with keys := (State.reset.keys.set 9 true).set 3 true }
    t.readV 3 = 3 ∧ t.pc = 0x202#16 := by decide

theorem test_ldVxKey_waits : (after (start 0xF30A)).pc = 0x200#16 := by decide

theorem test_ldDtVx : (after (startV 0xF315 [(3, 7)])).dt = 7#8 := by decide
theorem test_ldStVx : (after (startV 0xF218 [(2, 2)])).st = 2#8 := by decide

/-! ### Fetch, faults and host calls -/

/-- Section 2.1: out of range takes priority over misaligned. -/
theorem test_fetch_faults :
    (after { State.reset with pc := 0xFFF#16 }).fault = some ⟨.fetchOutOfRange, 0xFFF#16, none, 0xFFF⟩ ∧
    (after { State.reset with pc := 0x201#16 }).fault = some ⟨.fetchMisaligned, 0x201#16, none, 0x201⟩ := by decide

theorem test_undefined_opcode :
    (after (start 0x5121)).fault = some ⟨.undefinedOpcode, 0x200#16, some 0x5121#16, 0x5121⟩ := by decide

/-- Section 2.7: ST = 1 beeps once and both timers stay at 0. -/
theorem test_tick_timers :
    let r := State.tickTimers { State.reset with st := 1#8, dt := 0xFF#8 }
    r.1.st = 0 ∧ r.1.dt = 0xFE ∧ r.2 = true ∧ r.1.tickTimers.2 = false := by decide

/-- Section 2.8: a load copies only its own range. -/
theorem test_load_own_range :
    let t := (hostCall (.load [0x11#8]) { State.reset with mem := [(0x200, 0xAA#8), (0x201, 0xBB#8)] }).1
    t.mem.read 0x200 = 0x11 ∧ t.mem.read 0x201 = 0xBB := by decide

/-- Section 1, W1: a reset clears the latch and the registers. -/
theorem test_reset_clears :
    (hostCall .reset { after (start 0x00EE) with pc := 0x234#16 }).1 = State.reset := by decide

/-- Section 2.1: the last opcode of memory runs, and leaves `pc` past the end. -/
theorem test_end_of_memory : (after { State.reset with pc := 0xFFE#16 }).pc = 0x1000#16 := by decide

/-! ### Witnesses: the hypotheses of the statements can be met, clause by clause -/

theorem witness_EncodeOfDecodeIsIdentity : decodeWord 0x8124#16 = .ok (.addReg 1 2) := by decide

theorem witness_DecoderAgreesWithOpcodeTable :
    isDefined 0x8124#16 = true ∧ decodeWord 0x8124#16 = .ok (.addReg 1 2) ∧ isDefined 0x5121#16 = false := by decide

/-- Opcodes that meet the four masks of the encoding clauses. -/
theorem witness_PatternDecodes :
    0xB234#16 &&& 0xF000#16 = 0xB000#16 ∧ 0x8F14#16 &&& 0xF00F#16 = 0x8004#16 ∧ 0xFA33#16 &&& 0xF0FF#16 = 0xF033#16 ∧
    0x00EE#16 &&& 0xFFFF#16 = 0x00EE#16 := by decide

theorem witness_OpcodeIsBigEndian : memWrite [] 4095 1#8 = .ok [(4095, 1#8)] := by decide

/-- The highest address that can be fetched from. -/
theorem witness_StepRunsDecodedInstruction :
    let s := { State.reset with pc := 0xFFE#16, mem := [(0xFFE, 0x81#8), (0xFFF, 0x24#8)] }
    s.fault = none ∧ s.pc.toNat + 1 < 4096 ∧ s.pc.toNat % 2 = 0 ∧
    decodeBytes [s.mem.read s.pc.toNat, s.mem.read (s.pc.toNat + 1)] = .ok (.addReg 1 2, []) := by decide

/-- Each clause at its boundary: 0xFFF is out of range though odd, 0xFFD is the highest misaligned address in range. -/
theorem witness_FetchFaultsAreLatched :
    let s := { State.reset with pc := 0xFFF#16 }
    let u := { State.reset with pc := 0xFFD#16 }
    s.fault = none ∧ 4096 ≤ s.pc.toNat + 1 ∧ u.fault = none ∧ u.pc.toNat + 1 < 4096 ∧ u.pc.toNat % 2 = 1 := by decide

theorem witness_UndefinedOpcodeIsLatched :
    (start 0x0123).fault = none ∧ ((start 0x0123).pc.toNat + 1 < Config.memSize ∧ (start 0x0123).pc.toNat % 2 = 0) ∧
    isDefined (start 0x0123).opcodeAt = false := by decide

theorem witness_LatchedMachineStaysHalted :
    { State.reset with fault := some ⟨.stackUnderflow, 0x200#16, some 0x00EE#16, 0⟩ }.fault =
      some ⟨.stackUnderflow, 0x200#16, some 0x00EE#16, 0⟩ := by decide

theorem witness_FaultingTickIsPrecise :
    ∃ t, (start 0x00EE).fault = none ∧ step (start 0x00EE) = .next t ∧
      t.fault = some ⟨.stackUnderflow, 0x200#16, some 0x00EE#16, 0⟩ :=
  ⟨(start 0x00EE).latch .stackUnderflow (some 0x00EE#16) 0, by decide, rfl, by decide⟩

/-- No cause of a fault holds at reset, where the opcode is 0000. -/
theorem witness_TickFaultsExactlyForListedCauses :
    State.reset.fault = none ∧ ¬ ∃ r, State.reset.FaultCause r := by
  have hop : decodeWord State.reset.opcodeAt = .ok .nop := by decide
  have hdef : isDefined State.reset.opcodeAt = true := by decide
  refine ⟨rfl, ?_⟩
  rintro ⟨⟨c, p, o, n⟩, -, h⟩
  cases c with
  | fetchOutOfRange => exact absurd h.1 (by decide)
  | fetchMisaligned => exact absurd h.2.1 (by decide)
  | undefinedOpcode => exact absurd h.2.1 (by simp [hdef])
  | stackOverflow =>
    obtain ⟨nnn, hf, -⟩ := h
    have := hf.2
    rw [hop] at this
    cases this
  | stackUnderflow => exact absurd (hop.symm.trans h.1.2) (by decide)
  | memoryOutOfRange =>
    obtain ⟨i, hf, hr, -⟩ := h
    have := hf.2
    rw [hop] at this
    cases this
    exact hr (Or.inl rfl)
  | keyIndexOutOfRange =>
    obtain ⟨x, hf | hf, -⟩ := h <;>
      · have := hf.2
        rw [hop] at this
        cases this

/-- Both ends of the range of `sp` that returns, and the underflow. -/
theorem witness_ReturnPopsOrUnderflows :
    { State.reset with sp := 1 }.sp.val = (0 : Fin 16).val + 1 ∧ { State.reset with sp := 16 }.sp.val = (15 : Fin 16).val + 1 ∧
    State.reset.sp.val = 0 := by decide

/-- Both ends of the range of `sp` that calls, and the overflow. -/
theorem witness_CallPushesOrOverflows :
    State.reset.sp.val = (0 : Fin 16).val ∧ { State.reset with sp := 15 }.sp.val = (15 : Fin 16).val ∧
    { State.reset with sp := 16 }.sp.val = 16 := by decide

/-- The deepest call, and the state it leaves as the state its return runs in. -/
theorem witness_CallThenReturnResumesAfterCall :
    let s := { State.reset with sp := 15 }
    let t := { s with stack := s.stack.set 15 s.pc, sp := 16, pc := 0x300#16 }
    s.sp.val < 16 ∧ exec (.call 0x300#12) s = .next t ∧ t.stack = t.stack ∧ t.sp = t.sp :=
  ⟨by decide, rfl, rfl, rfl⟩

/-- Both ends of the range of `sp` on each side of both tests. -/
theorem witness_ControlFlowFrame :
    let s := { State.reset with sp := 1 }
    let u := { State.reset with sp := 16 }
    (exec (.jp 0x300#12) s = .next (s.jump 0x300#16) ∧ Part.byte 0 ≠ Part.pc) ∧
    (s.sp.val ≠ 0 ∧ exec .ret s = .next { s with sp := 0, pc := 0#16 } ∧ Part.fault ≠ .pc ∧ Part.fault ≠ .sp) ∧
    (State.reset.sp.val = 0 ∧ (∃ t, exec .ret State.reset = .next t) ∧ Part.sp ≠ .pc ∧ Part.sp ≠ .fault) ∧
    (s.sp.val ≠ 16 ∧ exec (.call 0x300#12) s = .next { s with stack := s.stack.set 1 s.pc, sp := 2, pc := 0x300#16 } ∧
      ∀ k : Fin 16, Part.stack 0 = .stack k → s.sp.val ≠ k.val) ∧
    (u.sp.val = 16 ∧ ∃ t, exec (.call 0x300#12) u = .next t) :=
  ⟨⟨rfl, by decide⟩, ⟨by decide, rfl, by decide, by decide⟩, ⟨rfl, ⟨_, rfl⟩, by decide, by decide⟩,
    ⟨by decide, rfl, by decide⟩, rfl, _, rfl⟩

theorem witness_RegisterFamilyFrame :
    (exec (.ldImm 1 5#8) State.reset = .next (State.reset.writeV 1 5#8) ∧ Part.v vf ≠ .v 1) ∧
    (exec (.addReg 1 2) State.reset = .next (State.reset.writeResultFlag 1 0#8 false) ∧ Part.v 2 ≠ .v 1 ∧ Part.v 2 ≠ .v vf) ∧
    (exec (.rnd 1 0#8) State.reset = .next ({ State.reset with draws := 1 }.writeV 1 0#8) ∧ Part.pc ≠ .draws) :=
  ⟨⟨rfl, by decide⟩, ⟨rfl, by decide, by decide⟩, test_rnd_mask_zero _ _, by decide⟩

theorem witness_IndexRegisterFrame :
    exec (.ldI 0x300#12) State.reset = .next { State.reset with i := 0x300#16 } ∧ Part.v vf ≠ .i := ⟨rfl, by decide⟩

/-- The highest I from which each block fits. -/
theorem witness_BlockAccessFits :
    { State.reset with i := 0xFFD#16 }.i.toNat + 2 < 4096 ∧ { State.reset with i := 0xFF0#16 }.i.toNat + (15 : RegIdx).val < 4096 ∧
    { State.reset with i := 0xFFF#16 }.i.toNat + (0 : RegIdx).val < 4096 := by decide

/-- The lowest I from which each block does not fit. -/
theorem witness_DataOutOfRangeFaultsPrecisely :
    (0 < (Instr.bcd 0).dataBytes ∧ 4096 < { State.reset with i := 0xFFE#16 }.i.toNat + (Instr.bcd 0).dataBytes) ∧
    (0 < (Instr.stRegs 15).dataBytes ∧ 4096 < { State.reset with i := 0xFF1#16 }.i.toNat + (Instr.stRegs 15).dataBytes) ∧
    (0 < (Instr.ldRegs 0).dataBytes ∧ 4096 < { State.reset with i := 0x1000#16 }.i.toNat + (Instr.ldRegs 0).dataBytes) ∧
    (0 < (Instr.drw 0 1 1).dataBytes ∧ 4096 < { State.reset with i := 0x1000#16 }.i.toNat + (Instr.drw 0 1 1).dataBytes) := by
  decide

theorem witness_StoreThenLoadRestoresRegisters :
    let s := { State.reset with i := 0xFFF#16 }
    s.i.toNat + (0 : RegIdx).val < 4096 ∧ exec (.stRegs 0) s = .next s := ⟨by decide, rfl⟩

/-- The highest I from which each block fits, and the lowest from which it does not. -/
theorem witness_BlockAccessFrame :
    let s := { State.reset with i := 0xFFD#16 }.writeV 0 7#8
    let u := { State.reset with i := 0xFFF#16 }.writeV 0 7#8
    (s.DataInRange 3 ∧ exec (.bcd 0) s = .next { s with mem := [(0xFFF, 7#8)] } ∧
      ∀ k < 3, Part.pc ≠ .byte (s.dataAddr + k)) ∧
    (u.DataInRange 1 ∧ exec (.stRegs 0) u = .next { u with mem := [(0xFFF, 7#8)] } ∧
      ∀ k ≤ (0 : RegIdx).val, Part.byte 0xFFE ≠ .byte (u.dataAddr + k)) ∧
    (u.DataInRange 1 ∧ exec (.ldRegs 0) u = .next (u.writeV 0 0#8) ∧
      ∀ k : Fin 16, k.val ≤ (0 : RegIdx).val → Part.v 1 ≠ .v k) ∧
    (¬ u.DataInRange (Instr.bcd 0).dataBytes ∧ ¬ u.DataInRange (Instr.stRegs 1).dataBytes ∧
      ¬ u.DataInRange (Instr.ldRegs 1).dataBytes ∧ ∃ t, exec (.ldRegs 1) u = .next t) :=
  ⟨⟨Or.inr (by decide), rfl, by decide⟩, ⟨Or.inr (by decide), rfl, by decide⟩, ⟨Or.inr (by decide), rfl, by decide⟩,
    by unfold State.DataInRange; decide, by unfold State.DataInRange; decide, by unfold State.DataInRange; decide, _, rfl⟩

/-- Stores that end at the top of memory, a load, and a `pc` that fetches the last two bytes. -/
theorem witness_StoredBytesAreFetched :
    { State.reset with i := 0xFFD#16 }.DataInRange 3 ∧ { State.reset with i := 0xFFE#16 }.DataInRange ((1 : RegIdx).val + 1) ∧
    [0x12#8, 0x34#8].length ≤ 3584 ∧ { State.reset with pc := 0xFFE#16 }.Fetchable ∧
    { State.reset with pc := 0xFFE#16 }.pc.toNat + 1 = 0xFFF :=
  ⟨Or.inr (by decide), Or.inr (by decide), by decide, ⟨by decide, by decide⟩, by decide⟩

theorem witness_ClearUnlightsEveryCell : ∀ k, Part.pc ≠ .cell k := fun k h => by cases h

/-- No rows with I far out of memory, and the highest I for 15 rows. -/
theorem witness_DrawInRange :
    ((0 : Fin 16).val = 0 ∨ { State.reset with i := 0xFFFF#16 }.i.toNat + (0 : Fin 16).val ≤ 4096) ∧
    ((15 : Fin 16).val = 0 ∨ { State.reset with i := 0xFF1#16 }.i.toNat + (15 : Fin 16).val ≤ 4096) := by decide

/-- Cell 0 is under the first row of glyph 0 (rule R20), and cell 4 is not. -/
theorem witness_DrawFlipsExactlyCoveredCells :
    State.reset.SpriteCovers 0 1 1 0 ∧ ¬ State.reset.SpriteCovers 0 1 1 4 := by
  constructor
  · exact ⟨0, 0, by decide, by decide, by decide, by decide, by decide⟩
  · rintro ⟨r, c, h, hc, h1, -, h3⟩
    have hr : r = 0 := by simpa [State.bytesAtI] using h
    have hx : c = 4 := by
      have : (State.reset.readV 0).toNat = 0 := by decide
      simp only [this, cellColumn, Nat.zero_add] at h1
      have : ((4 : Fin 2048) : Nat) = 4 := by decide
      omega
    subst hr hx
    have : (State.reset.bytesAtI (1 : Fin 16).val)[0]'h = 0xF0#8 := by decide +revert
    rw [this] at h3
    exact absurd h3 (by decide)

/-- The state after a draw on a clear display serves as the state of the second. -/
theorem witness_DrawTwiceRestoresDisplay :
    ∃ t, exec (.drw 0 1 1) State.reset = .next t ∧ t.mem = State.reset.mem ∧ t.i = State.reset.i ∧
      t.readV 0 = State.reset.readV 0 ∧ t.readV 1 = State.reset.readV 1 :=
  ⟨_, rfl, rfl, rfl, by decide, by decide⟩

/-- A sprite row with a set bit: glyph 0's first (rule R20). -/
theorem witness_SecondDrawAlwaysCollides :
    ∃ r, r < (1 : Fin 16).val ∧ State.reset.mem.read (State.reset.i.toNat + r) ≠ 0#8 := ⟨0, by decide, by decide⟩

/-- Glyph 0's first row, 0xF0, on the clear display: its four bits in another order, a set bit, no covered pixel lit, and the
state after the draw as the state of the second. -/
theorem witness_SpriteNeverOverlapsItself :
    State.reset.dataAddr + (1 : Fin 16).val ≤ 4096 ∧
    [(0, 3), (0, 1), (0, 0), (0, 2)].Nodup ∧
    (∀ r c, (r, c) ∈ [(0, 3), (0, 1), (0, 0), (0, 2)] ↔
      r < (1 : Fin 16).val ∧ c < 8 ∧ spriteBit (State.reset.mem.read (State.reset.dataAddr + r)) c = true) ∧
    State.reset.mem.read (State.reset.dataAddr + 0) ≠ 0#8 ∧ (∀ k, State.reset.display.cellAt k = false) ∧
    ∃ t, exec (.drw 0 1 1) State.reset = .next t ∧ t.mem = State.reset.mem ∧ t.i = State.reset.i ∧
      t.readV 0 = State.reset.readV 0 ∧ t.readV 1 = State.reset.readV 1 := by
  have hbits : ∀ r < 1, ∀ c < 8, (r, c) ∈ [(0, 3), (0, 1), (0, 0), (0, 2)] ↔
      spriteBit (State.reset.mem.read (State.reset.dataAddr + r)) c = true := by decide
  have hin : ∀ b ∈ [(0, 3), (0, 1), (0, 0), (0, 2)], b.1 < 1 ∧ b.2 < 8 := by decide
  refine ⟨by decide, by decide, fun r c => ⟨fun h => ?_, fun h => ?_⟩, by decide, ?_, _, rfl, rfl, rfl, by decide, by decide⟩
  · obtain ⟨hr, hc⟩ := hin _ h
    exact ⟨hr, hc, (hbits r hr c hc).1 h⟩
  · exact (hbits r h.1 c h.2.1).2 h.2.2
  · intro k
    simp [State.reset, Display.cellAt, Display.cell]

/-- No rows with I far out of memory, the highest I for one row, and the lowest that faults. -/
theorem witness_DisplayFamilyFrame :
    let s := { State.reset with i := 0xFFFF#16 }
    let u := { State.reset with i := 0xFFF#16 }
    let w := { State.reset with i := 0x1000#16 }
    (exec .cls s = .next s ∧ ∀ k, Part.pc ≠ .cell k) ∧
    ((0 : Fin 16).val = 0 ∧ (∃ t, exec (.drw 0 1 0) s = .next t) ∧ Part.pc ≠ .v vf ∧
      ∀ k, Part.pc = .cell k → ¬ s.SpriteCovers 0 1 0 k) ∧
    (u.dataAddr + (1 : Fin 16).val ≤ 4096 ∧ ∃ t, exec (.drw 0 1 1) u = .next t) ∧
    ((1 : Fin 16).val ≠ 0 ∧ 4096 < w.dataAddr + (1 : Fin 16).val ∧ (∃ t, exec (.drw 0 1 1) w = .next t) ∧
      Part.v vf ≠ .pc ∧ Part.v vf ≠ .fault) :=
  ⟨⟨rfl, fun k h => by cases h⟩, ⟨rfl, ⟨_, rfl⟩, by decide, fun k h => by cases h⟩, ⟨by decide, _, rfl⟩, by decide, by decide,
    ⟨_, rfl⟩, by decide, by decide⟩

/-- Key 15 is the last that can be tested, 16 the first that faults. -/
theorem witness_KeySkipsTestKeyOrFault :
    ((State.reset.writeV 5 15#8).readV 5).toNat = (15 : Fin 16).val ∧ 16 ≤ ((State.reset.writeV 5 16#8).readV 5).toNat := by
  decide

/-- Key 15 alone held, and none held. -/
theorem witness_KeyWaitTakesLowestHeldKey :
    let s := State.reset.setKey 15 true
    (s.keys[(15 : Fin 16)] = true ∧ ∀ j : Fin 16, j < 15 → s.keys[j] = false) ∧ ∀ k : Fin 16, State.reset.keys[k] = false := by
  decide

theorem witness_KeyWaitTicksChangeNothing :
    (start 0xF30A).fault = none ∧ (start 0xF30A).Fetches (.ldVxKey 3) ∧ ∀ k : Fin 16, (start 0xF30A).keys[k] = false :=
  ⟨by decide, ⟨⟨by decide, by decide⟩, by decide⟩, by decide⟩

/-- Key 15 is the last that can be tested, 16 the first that faults. -/
theorem witness_KeyAndTimerFamilyFrame :
    let s := State.reset.writeV 1 15#8
    let u := State.reset.writeV 1 16#8
    ((exec (.skp 1) s = .next s ∧ Part.fault ≠ .pc ∧ (s.readV 1).toNat < 16) ∧
      ((∃ t, exec (.skp 1) u = .next t) ∧ Part.v 1 ≠ .pc ∧ 16 ≤ (u.readV 1).toNat ∧ Part.v 1 ≠ .fault)) ∧
    (exec (.ldVxDt 1) State.reset = .next (State.reset.writeV 1 0#8) ∧ Part.dt ≠ .v 1) ∧
    (exec (.ldVxKey 1) State.reset = .next State.reset.rewind ∧ Part.dt ≠ .v 1 ∧ Part.dt ≠ .pc) ∧
    (exec (.ldDtVx 1) State.reset = .next State.reset ∧ Part.st ≠ .dt) ∧
    (exec (.ldStVx 1) State.reset = .next State.reset ∧ Part.dt ≠ .st) :=
  ⟨⟨⟨rfl, by decide, by decide⟩, ⟨_, rfl⟩, by decide, by decide, by decide⟩, ⟨rfl, by decide⟩, ⟨rfl, by decide, by decide⟩,
    ⟨rfl, by decide⟩, rfl, by decide⟩

/-- An instruction that writes its register, and one that takes a fault. -/
theorem witness_OnlyNamedInstructionsWriteEachField :
    exec (.ldImm 1 5#8) State.reset = .next (State.reset.writeV 1 5#8) ∧
    ∃ t, exec .ret State.reset = .next t ∧ TakesFault .ret .stackUnderflow State.reset t := ⟨rfl, _, rfl, 0, rfl⟩

/-- An instruction of each kind that changes VF. -/
theorem witness_OnlyNamedInstructionsWriteVf :
    (exec (.subReg 1 2) State.reset = .next (State.reset.writeResultFlag 1 0#8 true) ∧
      (State.reset.writeResultFlag 1 0#8 true).readV vf ≠ State.reset.readV vf) ∧
    (exec (.ldImm vf 5#8) State.reset = .next (State.reset.writeV vf 5#8) ∧
      (State.reset.writeV vf 5#8).readV vf ≠ State.reset.readV vf) := ⟨⟨rfl, by decide⟩, rfl, by decide⟩

/-- A state after a call, with a byte stored, meets the invariant, and steps. -/
theorem witness_StepKeepsInvariant :
    let s := { State.reset with pc := 0x300#16, sp := 1, stack := State.reset.stack.set 0 0x202#16, mem := [(0x310, 7#8)] }
    s.Inv ∧ step s = .next s.advance :=
  ⟨⟨by decide, by decide, by decide, fun r h => by cases h⟩, rfl⟩

/-- The largest load and the smallest that is refused. -/
theorem witness_LoadCopiesOrRefuses :
    (List.replicate 3584 (0#8 : Byte)).length ≤ 3584 ∧ 3584 < (List.replicate 3585 (0#8 : Byte)).length := by
  simp only [List.length_replicate]
  decide

theorem witness_ResetRestoresEveryField :
    (HostCall.new = .new ∨ HostCall.new = .reset) ∧ (HostCall.reset = .new ∨ HostCall.reset = .reset) := by decide

end Sys2Proof.Tests
end

/-! SUPPORT. Every step and every host call keeps the invariant: what the invariant depends on, an instruction run on the state
after fetch, a step, a host call, and a sequence of calls (rules R4, R40, R94, R101). -/

namespace Sys2Proof.Machine

variable {s t : State}

/-! ### What the invariant depends on -/

theorem State.Inv.mem_wf (h : s.Inv) : s.mem.wf := h.1

theorem State.Inv.stack_le (h : s.Inv) (k : Fin 16) : s.stack[k].toNat ≤ 4096 := (h.2.2.1 k).1

/-- The invariant speaks of memory, `pc`, the stack and the latch only. -/
theorem State.Inv.of_frame (h : s.Inv) (hmem : t.mem = s.mem) (hpc : t.pc = s.pc) (hstack : t.stack = s.stack)
    (hfault : t.fault = s.fault) : t.Inv := by
  simpa only [State.Inv, FaultRecord.Agrees, hmem, hpc, hstack, hfault] using h

/-- Another canonical memory keeps the invariant. -/
theorem State.Inv.withMem (h : s.Inv) {m : Memory} (hm : m.wf) : { s with mem := m }.Inv := by
  obtain ⟨-, hpc, hstack, hfault⟩ := h
  exact ⟨hm, hpc, hstack, hfault⟩

/-- Latching a record that has an opcode exactly when its reason is not fetch's own keeps the invariant (rule R80). -/
theorem State.Inv.latch (h : s.Inv) {c : FaultCode} {o : Option Word} (n : Nat)
    (ho : o = none ↔ c = .fetchOutOfRange ∨ c = .fetchMisaligned) : (s.latch c o n).Inv := by
  obtain ⟨hmem, hpc, hstack, -⟩ := h
  refine ⟨hmem, hpc, hstack, ?_⟩
  rintro r hr
  obtain rfl := Option.some.inj hr
  exact ⟨rfl, ho⟩

/-- With no fault latched, `pc` may move to any address up to 4350, the highest target of BNNN (rules R7, R49). -/
theorem State.Inv.jump (h : s.Inv) (hf : s.fault = none) {a : Word} (ha : a.toNat ≤ 4350) : (s.jump a).Inv := by
  obtain ⟨hmem, -, hstack, -⟩ := h
  refine ⟨hmem, ha, hstack, ?_⟩
  intro r hr
  cases hf.symm.trans hr

/-! ### The state after fetch -/

/-- The state an instruction executes on: `pc` is past an instruction that fetch accepts, and nothing is latched (rules R26,
R40). -/
structure State.PastFetch (s : State) : Prop where
  inv : s.Inv
  unlatched : s.fault = none
  pc_ge : 2 ≤ s.pc.toNat
  pc_le : s.pc.toNat ≤ 4096
  pc_even : s.pc.toNat % 2 = 0

namespace State.PastFetch

/-- An instruction may jump to any address up to 4350 (rule R27). -/
theorem inv_jump (h : s.PastFetch) {a : Word} (ha : a.toNat ≤ 4350) : (s.jump a).Inv :=
  h.inv.jump h.unlatched ha

/-- Going back to the instruction keeps the invariant (rules R75, R83). -/
theorem inv_rewind (h : s.PastFetch) : s.rewind.Inv :=
  h.inv_jump (by have := h.pc_ge; have := h.pc_le; bv_omega)

/-- A skip keeps the invariant. -/
theorem inv_skipIf (h : s.PastFetch) (c : Bool) : (s.skipIf c).Inv := by
  cases c with
  | false => exact h.inv
  | true => exact h.inv_jump (by have := h.pc_le; bv_omega)

/-- A fault that an instruction takes keeps the invariant (rules R80, R83). -/
theorem takeFault_inv (h : s.PastFetch) (i : Instr) {c : FaultCode} (n : Nat)
    (hc : c ≠ .fetchOutOfRange ∧ c ≠ .fetchMisaligned) : ∃ t, takeFault i c n s = .next t ∧ t.Inv :=
  ⟨_, rfl, h.inv_rewind.latch n (by simp [hc])⟩

/-- The address after an instruction is a return address that the stack may hold (rule R44). -/
theorem push_pastFetch (h : s.PastFetch) {k : Nat} (hk : k < 16) : { s with stack := s.stack.set k s.pc }.PastFetch := by
  obtain ⟨hmem, hpc, hstack, hfault⟩ := h.inv
  refine ⟨⟨hmem, hpc, fun j => ?_, hfault⟩, h.unlatched, h.pc_ge, h.pc_le, h.pc_even⟩
  by_cases hj : k = j.val
  · simpa [hj] using And.intro h.pc_le h.pc_even
  · simpa [hj] using hstack j

/-- A store at I keeps the invariant, whether it fits or faults (rules R22, R24). -/
theorem storeAtI_inv (h : s.PastFetch) (i : Instr) (bs : List Byte) : ∃ t, storeAtI i bs s = .next t ∧ t.Inv := by
  unfold storeAtI
  split
  · exact h.takeFault_inv i _ (by decide)
  · next hw => exact ⟨_, rfl, h.inv.withMem (writeBlock_keeps_wf h.inv.mem_wf hw)⟩

/-- A key test keeps the invariant, whether it skips or faults (rules R72, R73). -/
theorem skipOnKey_inv (h : s.PastFetch) (i : Instr) (x : RegIdx) (held : Bool) :
    ∃ t, skipOnKey i x held s = .next t ∧ t.Inv := by
  rw [skipOnKey_eq]
  split
  · exact ⟨_, rfl, h.inv_skipIf _⟩
  · exact h.takeFault_inv i _ (by decide)

end State.PastFetch

/-- A zero-extended immediate is at most 4095 (rule R35). -/
theorem zext12_toNat_le (nnn : Imm12) : (zext12 nnn).toNat ≤ 4095 := by
  have := nnn.isLt
  unfold zext12
  bv_omega

/-! ### An instruction, a step, a host call -/

/-- Every instruction, from the state after fetch, answers a next state that meets the invariant, a fault taken included. -/
theorem exec_completes_inv (h : s.PastFetch) (i : Instr) : Completes i s State.Inv := by
  cases i with
  | ret =>
    by_cases hsp : s.sp.val = 0
    · simpa only [Completes, exec, execRet, hsp, dite_true] using h.takeFault_inv .ret _ (by decide)
    · have htarget := Nat.le_trans (h.inv.stack_le ⟨s.sp.val - 1, by omega⟩) (by decide : 4096 ≤ 4350)
      exact ⟨_, dif_neg hsp, (h.inv_jump htarget).of_frame rfl rfl rfl rfl⟩
  | call nnn =>
    by_cases hsp : s.sp.val = 16
    · simpa only [Completes, exec, execCall, hsp, dite_true] using h.takeFault_inv (.call nnn) _ (by decide)
    · have htarget := Nat.le_trans (zext12_toNat_le nnn) (by decide : 4095 ≤ 4350)
      exact ⟨_, dif_neg hsp, ((h.push_pastFetch (by omega)).inv_jump htarget).of_frame rfl rfl rfl rfl⟩
  | jp nnn => exact ⟨_, rfl, h.inv_jump (Nat.le_trans (zext12_toNat_le nnn) (by decide))⟩
  | jpV0 nnn =>
    refine ⟨_, rfl, h.inv_jump ?_⟩
    have := (s.readV 0).isLt
    have := nnn.isLt
    rw [BitVec.toNat_ofNat]
    omega
  | seImm | sneImm | seReg | sneReg => exact ⟨_, rfl, h.inv_skipIf _⟩
  | skp x | sknp x => exact h.skipOnKey_inv _ x _
  | bcd | stRegs => exact h.storeAtI_inv _ _
  | ldVxKey x =>
    simp only [Completes, exec, execLdVxKey]
    split
    · exact ⟨_, rfl, h.inv.of_frame rfl rfl rfl rfl⟩
    · exact ⟨_, rfl, h.inv_rewind⟩
  | drw x y n =>
    simp only [Completes, exec, execDrw_eq]
    split
    · exact ⟨_, rfl, h.inv.of_frame rfl rfl rfl rfl⟩
    · exact h.takeFault_inv _ _ (by decide)
  | ldRegs x =>
    simp only [Completes, exec, execLdRegs_eq]
    split
    · exact ⟨_, rfl, h.inv.of_frame rfl rfl rfl rfl⟩
    · exact h.takeFault_inv _ _ (by decide)
  | nop | cls | ldImm | addImm | ldReg | orReg | andReg | xorReg | addReg | subReg | shrReg | subnReg | shlReg | ldI | rnd
  | ldVxDt | ldDtVx | ldStVx | addI | ldFont => exact ⟨_, rfl, h.inv.of_frame rfl rfl rfl rfl⟩

/-- Fetch leaves `pc` past an instruction that it accepts (rule R26). -/
theorem State.Inv.pastFetch_advance (h : s.Inv) (hf : s.fault = none) (hp : s.Fetchable) : s.advance.PastFetch := by
  obtain ⟨hlt, heven⟩ := hp
  simp only [Config.memSize] at hlt
  have hadd : (s.pc + 2#16).toNat = s.pc.toNat + 2 := by bv_omega
  refine ⟨h.jump hf ?_, hf, ?_, ?_, ?_⟩ <;> simp only [State.advance_pc, hadd] <;> omega

/-- Every step from the invariant answers a next state that meets it. -/
theorem step_completes_inv (h : s.Inv) : ∃ t, step s = .next t ∧ t.Inv := by
  rcases step_cases s with ⟨r, -, hs⟩ | ⟨-, -, hs⟩ | ⟨-, -, -, hs⟩ | ⟨-, -, -, hs⟩ | ⟨hf, i, hi, hs⟩
  · exact ⟨_, hs, h⟩
  · exact ⟨_, hs, h.latch _ (by decide)⟩
  · exact ⟨_, hs, h.latch _ (by decide)⟩
  · exact ⟨_, hs, h.latch _ (by simp)⟩
  · rw [hs]
    exact exec_completes_inv (h.pastFetch_advance hf hi.1) i

/-- The state after `new` or `reset` meets the invariant (rules R98 to R100). -/
theorem State.restart_inv (s : State) : s.restart.Inv := by
  have hreset : State.reset.Inv := ⟨Memory.wf_nil, by decide, by decide, fun r hr => by cases hr⟩
  exact hreset.of_frame rfl rfl rfl rfl

/-- A `load` keeps the invariant: it copies bytes that fit, or changes nothing (rule R101). -/
theorem hostCall_load_inv (h : s.Inv) (bytes : List Byte) : (hostCall (.load bytes) s).1.Inv := by
  simp only [hostCall, State.load]
  by_cases hlen : bytes.length > Config.loadMax
  · simpa only [hlen, if_true] using h
  · have hfits : Config.programStart + bytes.length ≤ Config.memSize := by
      simp only [Config.loadMax] at hlen
      simp only [Config.programStart, Config.memSize]
      omega
    simpa only [hlen, if_false] using h.withMem (Memory.wf_store h.mem_wf bytes hfits)

/-- Every host call keeps the invariant (rules R4, R94). -/
theorem hostCall_keeps_inv (h : s.Inv) (c : HostCall) : (hostCall c s).1.Inv := by
  cases c with
  | new | reset => exact s.restart_inv
  | load bytes => exact hostCall_load_inv h bytes
  | tick =>
    obtain ⟨t, hs, ht⟩ := step_completes_inv h
    simpa only [hostCall, hs] using ht
  | tickTimers | setKey => exact h.of_frame rfl rfl rfl rfl
  | getDisplay => exact h

/-- Settles O52, by induction on the calls: each one keeps the invariant. -/
theorem hostCallsKeepInvariant : Obligations.HostCallsKeepInvariant := by
  unfold Obligations.HostCallsKeepInvariant
  intro cs
  induction cs with
  | nil => exact fun s h => h
  | cons c cs ih => exact fun s h => ih _ (hostCall_keeps_inv h c)

end Sys2Proof.Machine

/-! SUPPORT. What changes in the state and what does not: the invariant over one step, the frames of the shared updates, a run
that stands still, and the one effect that each instruction has (rules R5 to R16, R40, R79). -/

namespace Sys2Proof.Machine

variable {i : Instr} {s t u : State}

/-- Settles O50: a step answers one next state only, and that one meets the invariant. -/
theorem stepKeepsInvariant : Obligations.StepKeepsInvariant := by
  unfold Obligations.StepKeepsInvariant
  intro s t h hs
  obtain ⟨t', hs', ht'⟩ := step_completes_inv h
  obtain rfl := Host.Outcome.next.inj (hs.symm.trans hs')
  exact ht'

/-- What holds of the state an instruction leaves holds of any state that `exec` answers. -/
theorem Completes.of_exec {P : State → Prop} (h : Completes i s P) (ht : exec i s = .next t) : P t := by
  obtain ⟨t', ht', hP⟩ := h
  obtain rfl := Host.Outcome.next.inj (ht.symm.trans ht')
  exact hP

/-! ### Frames of the shared updates -/

theorem Part.Same.trans {p : Part} (h : p.Same s t) (h' : p.Same t u) : p.Same s u := by
  cases p <;> exact Eq.trans h' h

/-- A register write leaves every other part (rule R5). -/
theorem Part.same_writeV {p : Part} {x : RegIdx} (b : Byte) (h : p ≠ .v x) : p.Same s (s.writeV x b) := by
  cases p with
  | v y => exact s.readV_writeV_other b (fun e => h (congrArg Part.v e))
  | _ => rfl

/-- Writing a result and a flag leaves every part but the two registers (rule R50). -/
theorem Part.same_writeResultFlag {p : Part} {x : RegIdx} (r : Byte) (f : Bool) (h : p ≠ .v x) (hf : p ≠ .v vf) :
    p.Same s (s.writeResultFlag x r f) :=
  (Part.same_writeV r h).trans (Part.same_writeV _ hf)

/-- Drawing a random byte leaves every part but the count of draws (log entry 4). -/
theorem Part.same_draw {p : Part} (h : p ≠ .draws) : p.Same s s.draw.2 := by
  cases p with
  | draws => exact absurd rfl h
  | _ => rfl

/-- 6XNN, 7XNN and 8XY0 to 8XY3 are one write to `V[X]` (rules R51 to R56). -/
theorem exec_eq_writeV (s : State) {x y : RegIdx} {nn : Byte}
    (hi : i ∈ [Instr.ldImm x nn, .addImm x nn, .ldReg x y, .orReg x y, .andReg x y, .xorReg x y]) :
    ∃ b, exec i s = .next (s.writeV x b) := by
  simp only [List.mem_cons, List.not_mem_nil, or_false] at hi
  rcases hi with rfl | rfl | rfl | rfl | rfl | rfl <;> exact ⟨_, rfl⟩

/-- 8XY4 to 8XY7 and 8XYE write a result to `V[X]` and then a flag to VF (rules R50, R57 to R61). -/
theorem exec_eq_writeResultFlag (s : State) {x y : RegIdx}
    (hi : i ∈ [Instr.addReg x y, .subReg x y, .shrReg x y, .subnReg x y, .shlReg x y]) :
    ∃ r f, exec i s = .next (s.writeResultFlag x r f) := by
  simp only [List.mem_cons, List.not_mem_nil, or_false] at hi
  rcases hi with rfl | rfl | rfl | rfl | rfl <;> exact ⟨_, _, rfl⟩

/-- Settles O28, from the frames of the register write, of the result and flag write, and of the draw. -/
theorem registerFamilyFrame : Obligations.RegisterFamilyFrame := by
  unfold Obligations.RegisterFamilyFrame
  intro x y nn s t p
  refine ⟨fun i hi ht hx => ?_, fun i hi ht hx hf => ?_, fun ht hx hd => ?_⟩
  · obtain ⟨b, hb⟩ := exec_eq_writeV s hi
    obtain rfl := Host.Outcome.next.inj (hb.symm.trans ht)
    exact Part.same_writeV b hx
  · obtain ⟨r, f, hr⟩ := exec_eq_writeResultFlag s hi
    obtain rfl := Host.Outcome.next.inj (hr.symm.trans ht)
    exact Part.same_writeResultFlag r f hx hf
  · obtain rfl := Host.Outcome.next.inj ht
    exact (Part.same_draw hd).trans (Part.same_writeV _ hx)

/-! ### Waiting for a key -/

/-- With no fault latched, a step executes the instruction fetched on the state past it (rules R26, R40). -/
theorem step_of_fetches (hf : s.fault = none) (h : s.Fetches i) : step s = exec i s.advance := by
  obtain ⟨⟨hlt, heven⟩, hd⟩ := h
  have hfetch : fetch s = .ok s.opcodeAt := by
    rw [fetch, if_neg (by omega), if_neg (by omega)]
  simp only [step, runTick, hf, hfetch, hd]

/-- A state that steps to itself is where any number of steps ends. -/
theorem run_of_step_self (h : step s = .next s) (n : Nat) : Host.Core.run Sys2Proof.core n s = .next s := by
  induction n with
  | zero => rfl
  | succ n ih =>
    have hstep : Sys2Proof.core.step s = .next s := h
    simp only [Host.Core.run, hstep, ih]

/-- The key scan finds nothing when no key is held (rule R75). -/
theorem firstHeldKey_eq_none {keys : Vector Bool 16} (h : ∀ k : Fin 16, keys[k] = false) : firstHeldKey keys = none := by
  rw [firstHeldKey, List.find?_eq_none]
  intro k _
  rw [h k]
  decide

/-- Settles O46: FX0A with no key held goes back over the advance of fetch, so the step ends in the state it began in. -/
theorem keyWaitTicksChangeNothing : Obligations.KeyWaitTicksChangeNothing := by
  unfold Obligations.KeyWaitTicksChangeNothing
  intro x s hf hfetch hkeys
  have hscan : firstHeldKey s.advance.keys = none := firstHeldKey_eq_none hkeys
  refine run_of_step_self ?_
  rw [step_of_fetches hf hfetch]
  simp only [exec, execLdVxKey, hscan, State.rewind_advance]

/-! ### The one effect of each instruction -/

/-- The faults an instruction takes (rule R79). -/
def MayTake (i : Instr) : FaultCode → Prop
  | .stackUnderflow => i = .ret
  | .stackOverflow => ∃ nnn, i = .call nnn
  | .keyIndexOutOfRange => ∃ x, i ∈ [Instr.skp x, .sknp x]
  | .memoryOutOfRange => (∃ x, i ∈ [Instr.bcd x, .stRegs x, .ldRegs x]) ∨ ∃ x y n, i = .drw x y n
  | .fetchOutOfRange | .fetchMisaligned | .undefinedOpcode => False

/-- The instructions that write `pc` and no more when they complete: jumps, skips, and the key wait (rules R43, R45 to R49, R72,
R73, R75). -/
def OnlyJumps (i : Instr) : Prop :=
  (∃ nnn, i ∈ [Instr.jp nnn, .jpV0 nnn]) ∨ (∃ x nn, i ∈ [Instr.seImm x nn, .sneImm x nn]) ∨
    (∃ x y, i ∈ [Instr.seReg x y, .sneReg x y]) ∨ ∃ x, i ∈ [Instr.skp x, .sknp x, .ldVxKey x]

/-- What instruction `i` can make of the state `s` after fetch: which fields it writes, whatever it writes there. Each
constructor's premise names the instructions that have the effect. -/
inductive Effect (i : Instr) (s : State) : State → Prop
  | nothing (hi : i = .nop) : Effect i s s
  | fault (code : FaultCode) (info : Nat) (hi : MayTake i code) : Effect i s (s.rewind.latch code (some (encode i)) info)
  | jump (a : Word) (hi : OnlyJumps i) : Effect i s (s.jump a)
  | ret (sp : Fin 17) (a : Word) (hi : i = .ret) : Effect i s { s with sp := sp, pc := a }
  | call (nnn : Imm12) (stack : Vector Word 16) (sp : Fin 17) (a : Word) (hi : i = .call nnn) :
      Effect i s { s with stack := stack, sp := sp, pc := a }
  | reg (x y : RegIdx) (nn b : Byte)
      (hi : i ∈ [Instr.ldImm x nn, .addImm x nn, .ldReg x y, .orReg x y, .andReg x y, .xorReg x y, .ldVxDt x, .ldVxKey x]) :
      Effect i s (s.writeV x b)
  | flag (x y : RegIdx) (r : Byte) (f : Bool)
      (hi : i ∈ [Instr.addReg x y, .subReg x y, .shrReg x y, .subnReg x y, .shlReg x y]) :
      Effect i s (s.writeResultFlag x r f)
  | random (x : RegIdx) (nn b : Byte) (hi : i = .rnd x nn) : Effect i s (s.draw.2.writeV x b)
  | loadRegs (x : RegIdx) (bs : List Byte) (hlen : bs.length = x.val + 1) (hi : i = .ldRegs x) :
      Effect i s { s with v := writeRegs s.v 0 bs }
  | index (a : Word) (hi : (∃ nnn, i = .ldI nnn) ∨ ∃ x, i = .addI x ∨ i = .ldFont x) : Effect i s { s with i := a }
  | clear (d : Display) (hi : i = .cls) : Effect i s { s with display := d }
  | sprite (x y : RegIdx) (n : Fin 16) (d : Display) (b : Byte) (hi : i = .drw x y n) :
      Effect i s ({ s with display := d }.writeV vf b)
  | store (m : Memory) (hi : ∃ x, i = .bcd x ∨ i = .stRegs x) : Effect i s { s with mem := m }
  | delay (x : RegIdx) (b : Byte) (hi : i = .ldDtVx x) : Effect i s { s with dt := b }
  | sound (x : RegIdx) (b : Byte) (hi : i = .ldStVx x) : Effect i s { s with st := b }

/-- A skip is a jump, past the next instruction or to where `pc` is. -/
theorem State.skipIf_eq_jump (s : State) (c : Bool) : s.skipIf c = s.jump (if c then s.pc + 2#16 else s.pc) := by
  cases c <;> rfl

/-- A fault that an instruction may take is one of its effects. -/
theorem takeFault_effect (code : FaultCode) (hi : MayTake i code) (info : Nat) (s : State) :
    ∃ t, takeFault i code info s = .next t ∧ Effect i s t := ⟨_, rfl, .fault code info hi⟩

/-- A skip is one of the effects of an instruction that only jumps. -/
theorem Effect.skipIf (s : State) (c : Bool) (hi : OnlyJumps i) : Effect i s (s.skipIf c) :=
  s.skipIf_eq_jump c ▸ .jump _ hi

/-- A key test skips or faults (rules R72, R73). -/
theorem skipOnKey_effect {x : RegIdx} (hi : i ∈ [Instr.skp x, .sknp x]) (held : Bool) (s : State) :
    ∃ t, skipOnKey i x held s = .next t ∧ Effect i s t := by
  rw [skipOnKey_eq]
  split
  · refine ⟨_, rfl, Effect.skipIf s _ (.inr (.inr (.inr ⟨x, ?_⟩)))⟩
    exact List.mem_append_left [Instr.ldVxKey x] hi
  · exact takeFault_effect .keyIndexOutOfRange ⟨x, hi⟩ _ s

/-- A store at I writes memory or faults (rules R22, R66, R67). -/
theorem storeAtI_effect {x : RegIdx} (hi : i = .bcd x ∨ i = .stRegs x) (bs : List Byte) (s : State) :
    ∃ t, storeAtI i bs s = .next t ∧ Effect i s t := by
  rw [storeAtI_eq]
  split
  · exact ⟨_, rfl, .store _ ⟨x, hi⟩⟩
  · exact takeFault_effect .memoryOutOfRange (.inl ⟨x, by rcases hi with rfl | rfl <;> simp⟩) _ s

/-- Every instruction completes with one of its effects. -/
theorem exec_effect (i : Instr) (s : State) : Completes i s (Effect i s) := by
  cases i with
  | nop => exact ⟨_, rfl, .nothing rfl⟩
  | cls => exact ⟨_, rfl, .clear _ rfl⟩
  | ret =>
    by_cases hsp : s.sp.val = 0
    · simpa only [Completes, exec, execRet, hsp, dite_true] using takeFault_effect .stackUnderflow rfl _ s
    · exact ⟨_, dif_neg hsp, .ret _ _ rfl⟩
  | call nnn =>
    by_cases hsp : s.sp.val = 16
    · simpa only [Completes, exec, execCall, hsp, dite_true] using takeFault_effect .stackOverflow ⟨nnn, rfl⟩ _ s
    · exact ⟨_, dif_neg hsp, .call nnn _ _ _ rfl⟩
  | jp nnn | jpV0 nnn => exact ⟨_, rfl, .jump _ (.inl ⟨nnn, by simp⟩)⟩
  | seImm x nn | sneImm x nn => exact ⟨_, rfl, Effect.skipIf s _ (.inr (.inl ⟨x, nn, by simp⟩))⟩
  | seReg x y | sneReg x y => exact ⟨_, rfl, Effect.skipIf s _ (.inr (.inr (.inl ⟨x, y, by simp⟩)))⟩
  | skp x | sknp x => exact skipOnKey_effect (by simp) _ s
  | ldImm x nn | addImm x nn => exact ⟨_, rfl, .reg x 0 nn _ (by simp)⟩
  | ldReg x y | orReg x y | andReg x y | xorReg x y => exact ⟨_, rfl, .reg x y 0 _ (by simp)⟩
  | ldVxDt x => exact ⟨_, rfl, .reg x 0 0 _ (by simp)⟩
  | ldVxKey x =>
    simp only [Completes, exec, execLdVxKey]
    split
    · exact ⟨_, rfl, .reg x 0 0 _ (by simp)⟩
    · exact ⟨_, rfl, .jump _ (.inr (.inr (.inr ⟨x, by simp⟩)))⟩
  | addReg x y | subReg x y | shrReg x y | subnReg x y | shlReg x y => exact ⟨_, rfl, .flag x y _ _ (by simp)⟩
  | rnd x nn => exact ⟨_, rfl, .random x nn _ rfl⟩
  | ldI nnn => exact ⟨_, rfl, .index _ (.inl ⟨nnn, rfl⟩)⟩
  | addI x => exact ⟨_, rfl, .index _ (.inr ⟨x, .inl rfl⟩)⟩
  | ldFont x => exact ⟨_, rfl, .index _ (.inr ⟨x, .inr rfl⟩)⟩
  | bcd x => exact storeAtI_effect (.inl rfl) _ s
  | stRegs x => exact storeAtI_effect (.inr rfl) _ s
  | ldRegs x =>
    simp only [Completes, exec, execLdRegs_eq]
    split
    · exact ⟨_, rfl, .loadRegs x _ (by simp [State.bytesAtI]) rfl⟩
    · exact takeFault_effect .memoryOutOfRange (.inl ⟨x, by simp⟩) _ s
  | drw x y n =>
    simp only [Completes, exec, execDrw_eq]
    split
    · exact ⟨_, rfl, .sprite x y n _ _ rfl⟩
    · exact takeFault_effect .memoryOutOfRange (.inr ⟨x, y, n, rfl⟩) _ s
  | ldDtVx x => exact ⟨_, rfl, .delay x _ rfl⟩
  | ldStVx x => exact ⟨_, rfl, .sound x _ rfl⟩

/-! ### Which effects write each field -/

namespace Effect

theorem keys_same (h : Effect i s t) : t.keys = s.keys := by
  cases h <;> rfl

theorem dt_cases (h : Effect i s t) : t.dt = s.dt ∨ ∃ x, i = .ldDtVx x := by
  cases h with
  | delay x _ hi => exact .inr ⟨x, hi⟩
  | _ => exact .inl rfl

theorem st_cases (h : Effect i s t) : t.st = s.st ∨ ∃ x, i = .ldStVx x := by
  cases h with
  | sound x _ hi => exact .inr ⟨x, hi⟩
  | _ => exact .inl rfl

theorem i_cases (h : Effect i s t) : t.i = s.i ∨ (∃ nnn, i = .ldI nnn) ∨ ∃ x, i = .addI x ∨ i = .ldFont x := by
  cases h with
  | index _ hi => exact .inr hi
  | _ => exact .inl rfl

theorem stack_cases (h : Effect i s t) : (t.sp = s.sp ∧ t.stack = s.stack) ∨ i = .ret ∨ ∃ nnn, i = .call nnn := by
  cases h with
  | ret _ _ hi => exact .inr (.inl hi)
  | call nnn _ _ _ hi => exact .inr (.inr ⟨nnn, hi⟩)
  | _ => exact .inl ⟨rfl, rfl⟩

theorem display_cases (h : Effect i s t) : t.display = s.display ∨ i = .cls ∨ ∃ x y n, i = .drw x y n := by
  cases h with
  | clear _ hi => exact .inr (.inl hi)
  | sprite x y n _ _ hi => exact .inr (.inr ⟨x, y, n, hi⟩)
  | _ => exact .inl rfl

theorem mem_cases (h : Effect i s t) : t.mem = s.mem ∨ ∃ x, i = .bcd x ∨ i = .stRegs x := by
  cases h with
  | store _ hi => exact .inr hi
  | _ => exact .inl rfl

theorem draws_cases (h : Effect i s t) : t.draws = s.draws ∨ ∃ x nn, i = .rnd x nn := by
  cases h with
  | random x nn _ hi => exact .inr ⟨x, nn, hi⟩
  | _ => exact .inl rfl

theorem pc_cases (h : Effect i s t) :
    t.pc = s.pc ∨ (∃ code, TakesFault i code s t) ∨ i = .ret ∨ (∃ nnn, i = .call nnn) ∨ OnlyJumps i := by
  cases h with
  | fault code info _ => exact .inr (.inl ⟨code, info, rfl⟩)
  | ret _ _ hi => exact .inr (.inr (.inl hi))
  | call nnn _ _ _ hi => exact .inr (.inr (.inr (.inl ⟨nnn, hi⟩)))
  | jump _ hi => exact .inr (.inr (.inr (.inr hi)))
  | _ => exact .inl rfl

theorem fault_cases (h : Effect i s t) : t.fault = s.fault ∨ ∃ code, MayTake i code ∧ TakesFault i code s t := by
  cases h with
  | fault code info hi => exact .inr ⟨code, hi, info, rfl⟩
  | _ => exact .inl rfl

/-- A register changes as the register X of an instruction that writes one, in FX65's block, or as the flag (rules R6, R68). -/
theorem readV_cases (h : Effect i s t) (k : RegIdx) :
    t.readV k = s.readV k ∨
    (∃ y nn, i ∈ [Instr.ldImm k nn, .addImm k nn, .ldReg k y, .orReg k y, .andReg k y, .xorReg k y, .addReg k y,
      .subReg k y, .shrReg k y, .subnReg k y, .shlReg k y, .rnd k nn, .ldVxDt k, .ldVxKey k]) ∨
    (∃ x : RegIdx, k.val ≤ x.val ∧ i = .ldRegs x) ∨
    (k = vf ∧ ((∃ x y, i ∈ [Instr.addReg x y, .subReg x y, .shrReg x y, .subnReg x y, .shlReg x y]) ∨
      ∃ x y n, i = .drw x y n)) := by
  cases h with
  | reg x y nn b hi =>
    by_cases hk : k = x
    · subst hk
      refine .inr (.inl ⟨y, nn, ?_⟩)
      simp only [List.mem_cons] at hi ⊢
      tauto
    · exact .inl (s.readV_writeV_other b hk)
  | flag x y r f hi =>
    by_cases hf : k = vf
    · exact .inr (.inr (.inr ⟨hf, .inl ⟨x, y, hi⟩⟩))
    · by_cases hk : k = x
      · subst hk
        refine .inr (.inl ⟨y, 0, ?_⟩)
        simp only [List.mem_cons] at hi ⊢
        tauto
      · exact .inl (s.readV_writeResultFlag_other r f hk hf)
  | random x nn b hi =>
    by_cases hk : k = x
    · subst hk
      exact .inr (.inl ⟨0, nn, by simp [hi]⟩)
    · exact .inl (s.draw.2.readV_writeV_other b hk)
  | loadRegs x bs hlen hi =>
    by_cases hk : k.val ≤ x.val
    · exact .inr (.inr (.inl ⟨x, hk, hi⟩))
    · exact .inl ((getElem_writeRegs s.v 0 bs k).trans (dif_neg (by omega)))
  | sprite x y n d b hi =>
    by_cases hf : k = vf
    · exact .inr (.inr (.inr ⟨hf, .inr ⟨x, y, n, hi⟩⟩))
    · exact .inl (State.readV_writeV_other _ b hf)
  | _ => exact .inl rfl

end Effect

/-- Settles O48, field by field over the one effect that an instruction has. -/
theorem onlyNamedInstructionsWriteEachField : Obligations.OnlyNamedInstructionsWriteEachField := by
  unfold Obligations.OnlyNamedInstructionsWriteEachField
  intro i s t ht
  have h : Effect i s t := (exec_effect i s).of_exec ht
  refine ⟨h.keys_same, h.dt_cases, h.st_cases, h.i_cases, h.stack_cases, h.display_cases, h.mem_cases, ?_, ?_, h.readV_cases,
    h.draws_cases⟩
  · refine h.pc_cases.imp_right (Or.imp_right (Or.imp_right ?_))
    rintro (⟨nnn, rfl⟩ | ⟨nnn, hi⟩ | hi)
    · exact .inl ⟨nnn, by simp⟩
    · refine .inl ⟨nnn, ?_⟩
      simp only [List.mem_cons] at hi ⊢
      tauto
    · exact .inr hi
  · refine h.fault_cases.imp_right ?_
    rintro ⟨code, hi, hfault⟩
    cases code with
    | stackUnderflow => exact .inl ⟨hi, hfault⟩
    | stackOverflow => exact .inr (.inl ⟨hi, hfault⟩)
    | keyIndexOutOfRange => exact .inr (.inr (.inl ⟨hi, hfault⟩))
    | memoryOutOfRange => exact .inr (.inr (.inr ⟨hi, hfault⟩))
    | fetchOutOfRange | fetchMisaligned | undefinedOpcode => exact hi.elim

/-- Settles O49: VF is register 15 in what O48 says of every register. -/
theorem onlyNamedInstructionsWriteVf : Obligations.OnlyNamedInstructionsWriteVf := by
  unfold Obligations.OnlyNamedInstructionsWriteVf
  intro i s t ht hne
  rcases ((exec_effect i s).of_exec ht).readV_cases vf with h | ⟨y, nn, hi⟩ | ⟨x, hx, rfl⟩ | ⟨-, hi | hi⟩
  · exact absurd h hne
  · have hsplit : i ∈ [Instr.addReg vf y, .subReg vf y, .shrReg vf y, .subnReg vf y, .shlReg vf y] ∨
        i ∈ [Instr.ldImm vf nn, .addImm vf nn, .ldReg vf y, .orReg vf y, .andReg vf y, .xorReg vf y, .rnd vf nn,
          .ldVxDt vf, .ldVxKey vf, .ldRegs vf] := by
      simp only [List.mem_cons] at hi ⊢
      tauto
    exact hsplit.elim (fun h => .inl ⟨vf, y, h⟩) (fun h => .inr (.inr ⟨y, nn, h⟩))
  · obtain rfl : x = vf := Fin.ext (Nat.le_antisymm (Nat.lt_succ_iff.1 x.isLt) hx)
    exact .inr (.inr ⟨0, 0, by simp⟩)
  · exact .inl hi
  · exact .inr (.inl hi)

end Sys2Proof.Machine

/-! SUPPORT. Memory as instructions, `load` and fetch use it: a block access at I that fits and one that does not, the frames of
both, what a later fetch reads of a block stored, and fetch's own cases (rules R22 to R31, R66 to R68, R82, R83, R101). -/

namespace Sys2Proof.Machine

variable {i : Instr} {s : State} {m m' : Memory} {a k n : Nat} {b : Byte} {bs : List Byte}

/-! ### Blocks of bytes -/

@[simp] theorem decimalDigits_length (b : Byte) : (decimalDigits b).length = 3 := rfl

/-- The digits of a byte are the hundreds, tens and ones of its number (rule R66). -/
theorem decimalDigits_toNat (b : Byte) :
    (decimalDigits b)[0].toNat = b.toNat / 100 ∧ (decimalDigits b)[1].toNat = b.toNat / 10 % 10 ∧
      (decimalDigits b)[2].toNat = b.toNat % 10 := by
  have := b.isLt
  simp only [decimalDigits, List.getElem_cons_zero, List.getElem_cons_succ, BitVec.toNat_ofNat]
  omega

@[simp] theorem State.regBlock_length (s : State) (x : RegIdx) : (s.regBlock x).length = x.val + 1 := by
  have := x.isLt
  simp only [State.regBlock, List.length_take, Vector.length_toList]
  omega

@[simp] theorem State.bytesAtI_length (s : State) (n : Nat) : (s.bytesAtI n).length = n := by
  simp [State.bytesAtI]

/-- Entry k of the register block is `V[k]` (rule R67). -/
theorem State.regBlock_getElem (s : State) (x k : RegIdx) (h : k.val < (s.regBlock x).length) :
    (s.regBlock x)[k.val] = s.readV k := by
  simp [State.regBlock, State.readV]

/-- Byte k of a block is at the address `a + k` once the block is stored at `a`. -/
theorem Memory.read_store_getElem (m : Memory) (a : Nat) (h : k < bs.length) : (Memory.store m a bs).read (a + k) = bs[k] := by
  have hin : a ≤ a + k ∧ a + k < a + bs.length := by omega
  simp [Memory.read_store, hin]

/-- A later fetch reads byte k of a block stored at `a` at the address `a + k` (rule R31). -/
theorem fetchSees_store (m : Memory) (a : Nat) (h : k < bs.length) (hn : bs[k].toNat = n) :
    FetchSees (Memory.store m a bs) (a + k) n :=
  hn ▸ fetchSees_of_read (Memory.read_store_getElem m a h)

/-- A one-byte write that succeeds is the write at its address (rule R24). -/
theorem memWrite_eq_ok (h : memWrite m a b = .ok m') : m.write a b = m' := by
  unfold memWrite at h
  split at h
  · exact Except.ok.inj h
  · cases h

/-! ### Block accesses at I -/

theorem State.dataInRange_iff : s.DataInRange n ↔ n = 0 ∨ s.i.toNat + n ≤ Config.memSize := Iff.rfl

theorem State.dataInRange_length : s.DataInRange bs.length ↔ bs = [] ∨ s.i.toNat + bs.length ≤ Config.memSize := by
  rw [State.dataInRange_iff, List.length_eq_zero_iff]

theorem State.dataInRange_succ : s.DataInRange (n + 1) ↔ s.i.toNat + (n + 1) ≤ Config.memSize := by
  simp only [State.dataInRange_iff, Nat.succ_ne_zero, false_or]

/-- A store at I whose bytes fit copies them (rule R24). -/
theorem storeAtI_of_inRange (i : Instr) (h : s.DataInRange bs.length) :
    storeAtI i bs s = .next { s with mem := Memory.store s.mem s.dataAddr bs } := by
  rw [storeAtI_eq, if_pos (State.dataInRange_length.1 h), State.dataAddr]

/-- A store at I that does not fit takes a fault (rules R22, R82). -/
theorem storeAtI_of_not_inRange (i : Instr) (h : ¬ s.DataInRange bs.length) :
    storeAtI i bs s = takeFault i .memoryOutOfRange (max s.i.toNat Config.memSize) s := by
  rw [storeAtI_eq, if_neg (fun hfit => h (State.dataInRange_length.2 hfit))]

theorem exec_bcd_of_inRange (x : RegIdx) (h : s.DataInRange 3) :
    exec (.bcd x) s = .next { s with mem := Memory.store s.mem s.dataAddr (decimalDigits (s.readV x)) } :=
  storeAtI_of_inRange (bs := decimalDigits (s.readV x)) (.bcd x) h

theorem exec_stRegs_of_inRange {x : RegIdx} (h : s.DataInRange (x.val + 1)) :
    exec (.stRegs x) s = .next { s with mem := Memory.store s.mem s.dataAddr (s.regBlock x) } :=
  storeAtI_of_inRange (.stRegs x) (by rwa [State.regBlock_length])

theorem exec_ldRegs_of_inRange {x : RegIdx} (h : s.DataInRange (x.val + 1)) :
    exec (.ldRegs x) s = .next { s with v := writeRegs s.v 0 (s.bytesAtI (x.val + 1)) } :=
  (execLdRegs_eq x s).trans (if_pos (State.dataInRange_succ.1 h))

/-- A block access that does not fit takes a fault that names the lowest address out of range (rules R22, R82). -/
theorem exec_of_not_inRange {x y : RegIdx} {n : Fin 16} (hi : i ∈ [Instr.bcd x, .stRegs x, .ldRegs x, .drw x y n])
    (h : ¬ s.DataInRange i.dataBytes) :
    exec i s = takeFault i .memoryOutOfRange (max s.i.toNat Config.memSize) s := by
  simp only [List.mem_cons, List.not_mem_nil, or_false] at hi
  rcases hi with rfl | rfl | rfl | rfl
  · exact storeAtI_of_not_inRange (bs := decimalDigits (s.readV x)) (.bcd x) h
  · exact storeAtI_of_not_inRange (.stRegs x) (by rwa [State.regBlock_length])
  · exact (execLdRegs_eq x s).trans (if_neg (fun hfit => h (State.dataInRange_succ.2 hfit)))
  · exact (execDrw_eq x y n s).trans (if_neg h)

/-- Settles O34: an access of at least one byte past the end of memory is not in range, and the fault it takes is the whole next
state. -/
theorem dataOutOfRangeFaultsPrecisely : Obligations.DataOutOfRangeFaultsPrecisely := by
  unfold Obligations.DataOutOfRangeFaultsPrecisely
  intro x y n s i hi hpos hend
  have hout : ¬ s.DataInRange i.dataBytes := by
    simp only [State.dataInRange_iff, Config.memSize]
    omega
  rw [exec_of_not_inRange hi hout, takeFault_eq]

/-! ### Frames of the block accesses -/

/-- A copy of bytes into memory leaves every part but the bytes it stores. -/
theorem Part.same_store {p : Part} (h : ∀ k < bs.length, p ≠ .byte (a + k)) :
    p.Same s { s with mem := Memory.store s.mem a bs } := by
  cases p with
  | byte c =>
    have hout : ¬ (a ≤ c ∧ c < a + bs.length) := by
      rintro ⟨hle, hlt⟩
      exact h (c - a) (by omega) (congrArg Part.byte (by omega))
    exact (Memory.read_store s.mem a c bs).trans (dif_neg hout)
  | _ => rfl

/-- Writing registers from V0 up leaves every part but those registers. -/
theorem Part.same_writeRegs {p : Part} (h : ∀ k : RegIdx, k.val < bs.length → p ≠ .v k) :
    p.Same s { s with v := writeRegs s.v 0 bs } := by
  cases p with
  | v k =>
    have hout : ¬ (0 ≤ k.val ∧ k.val < 0 + bs.length) := by
      rintro ⟨-, hlt⟩
      exact h k (by omega) rfl
    exact (getElem_writeRegs s.v 0 bs k).trans (dif_neg hout)
  | _ => rfl

/-- Taking a fault leaves every part but `pc` and the latch (rule R83). -/
theorem Part.same_takeFault {p : Part} {t : State} {code : FaultCode} (ht : takeFault i code n s = .next t)
    (hpc : p ≠ .pc) (hfault : p ≠ .fault) : p.Same s t := by
  obtain rfl := Host.Outcome.next.inj ht
  cases p with
  | pc => exact absurd rfl hpc
  | fault => exact absurd rfl hfault
  | _ => rfl

/-- Settles O36, from the frames of the store, of the register write, and of the fault taken. -/
theorem blockAccessFrame : Obligations.BlockAccessFrame := by
  unfold Obligations.BlockAccessFrame
  intro x s t p
  refine ⟨fun h ht hp => ?_, fun h ht hp => ?_, fun h ht hp => ?_, fun i hi h ht hpc hfault => ?_⟩
  · obtain rfl := Host.Outcome.next.inj ((exec_bcd_of_inRange x h).symm.trans ht)
    exact Part.same_store hp
  · obtain rfl := Host.Outcome.next.inj ((exec_stRegs_of_inRange h).symm.trans ht)
    refine Part.same_store fun k hk => hp k ?_
    rw [State.regBlock_length] at hk
    exact Nat.le_of_lt_succ hk
  · obtain rfl := Host.Outcome.next.inj ((exec_ldRegs_of_inRange h).symm.trans ht)
    refine Part.same_writeRegs fun k hk => hp k ?_
    rw [State.bytesAtI_length] at hk
    exact Nat.le_of_lt_succ hk
  · have hmem : i ∈ [Instr.bcd x, .stRegs x, .ldRegs x, .drw x 0 0] := List.mem_append_left [Instr.drw x 0 0] hi
    exact Part.same_takeFault ((exec_of_not_inRange hmem h).symm.trans ht) hpc hfault

/-! ### Stored bytes are fetched -/

/-- A load of at most 3584 bytes copies them from address 512 up (rule R101). -/
theorem hostCall_load_of_le (s : State) (h : bs.length ≤ Config.loadMax) :
    hostCall (.load bs) s = ({ s with mem := Memory.store s.mem Config.programStart bs }, .ok) := by
  simp only [hostCall, State.load, if_neg (Nat.not_lt.2 h)]

/-- Settles O37: each byte of a block that FX33, FX55 or `load` has stored is what memory reads there, and so what fetch sees. -/
theorem storedBytesAreFetched : Obligations.StoredBytesAreFetched := by
  unfold Obligations.StoredBytesAreFetched
  intro s
  refine ⟨fun x h => ⟨_, exec_bcd_of_inRange x h, ?_⟩, fun x h => ⟨_, exec_stRegs_of_inRange h, fun k hk => ?_⟩,
    fun bytes h => ⟨_, hostCall_load_of_le s h, fun k hk => fetchSees_store s.mem 512 hk rfl⟩⟩
  · obtain ⟨hhundreds, htens, hones⟩ := decimalDigits_toNat (s.readV x)
    exact ⟨fetchSees_store s.mem s.dataAddr (k := 0) (by simp) hhundreds,
      fetchSees_store s.mem s.dataAddr (k := 1) (by simp) htens, fetchSees_store s.mem s.dataAddr (k := 2) (by simp) hones⟩
  · have hlt : k.val < (s.regBlock x).length := by
      rw [State.regBlock_length]
      omega
    exact fetchSees_store s.mem s.dataAddr hlt (congrArg BitVec.toNat (s.regBlock_getElem x k hlt))

/-! ### Fetch and decode -/

/-- Settles O6: the two bytes at `pc` as a number, and a write read back at any address. -/
theorem opcodeIsBigEndian : Obligations.OpcodeIsBigEndian := by
  unfold Obligations.OpcodeIsBigEndian
  refine ⟨fun s => wordOfBytes_toNat _ _, fun m m' a v hw b => ?_⟩
  rw [← memWrite_eq_ok hw, Memory.read_write]

/-- Two bytes decode as the opcode they make (rules R25, R33). -/
theorem decodeWord_of_decodeBytes {hi lo : Byte} {rest : List Byte} (h : decodeBytes [hi, lo] = .ok (i, rest)) :
    decodeWord (wordOfBytes hi lo) = .ok i := by
  simp only [decodeBytes] at h
  split at h
  · next hd =>
    cases h
    exact hd
  · cases h

/-- Settles O7: the decoded bytes are the opcode that the step fetches. -/
theorem stepRunsDecodedInstruction : Obligations.StepRunsDecodedInstruction := by
  unfold Obligations.StepRunsDecodedInstruction
  intro s i hf hlt heven hd
  exact step_of_fetches hf ⟨⟨hlt, heven⟩, decodeWord_of_decodeBytes hd⟩

/-- A fault of fetch is latched in the state before the tick, with no opcode and `pc` as its value (rules R26, R80, R83). -/
theorem step_of_fetch_error {code : FaultCode} (hf : s.fault = none) (h : fetch s = .error code) :
    step s = .next (s.latch code none s.pc.toNat) := by
  simp only [step, runTick, hf, h]

/-- Settles O8, from the two checks of fetch in their order. -/
theorem fetchFaultsAreLatched : Obligations.FetchFaultsAreLatched := by
  unfold Obligations.FetchFaultsAreLatched
  intro s hf
  refine ⟨fun hout => step_of_fetch_error hf (if_pos hout), fun hlt hodd => step_of_fetch_error hf ?_⟩
  exact (if_neg (Nat.not_le.2 hlt)).trans (if_pos hodd)

/-- Settles O1, by running the decoder on each word. -/
theorem specWordsDecode : Obligations.SpecWordsDecode := by
  unfold Obligations.SpecWordsDecode
  decide

end Sys2Proof.Machine

/-! SUPPORT. The encoder, the decoder and the opcode table say the same of every opcode: the fields of an encoded word, the word
built again from its fields, and the instruction that a row makes of a word it selects (rules R33 to R38). -/

namespace Sys2Proof

/-! ### The fields of an encoded word -/

section

variable {n1 : Nat} (h : n1 < 16)
include h

@[simp] theorem fieldN1_encodeNNN (nnn : Imm12) : fieldN1 (encodeNNN n1 nnn) = n1 := by
  have := nnn.isLt
  rw [fieldN1_eq, encodeNNN_toNat h]
  omega

@[simp] theorem fieldNNN_encodeNNN (nnn : Imm12) : fieldNNN (encodeNNN n1 nnn) = nnn := by
  have := nnn.isLt
  apply BitVec.eq_of_toNat_eq
  rw [fieldNNN_toNat, encodeNNN_toNat h]
  omega

@[simp] theorem fieldN1_encodeXNN (x : RegIdx) (nn : Byte) : fieldN1 (encodeXNN n1 x nn) = n1 := by
  have := nn.isLt
  rw [fieldN1_eq, encodeXNN_toNat h]
  omega

@[simp] theorem fieldX_encodeXNN (x : RegIdx) (nn : Byte) : fieldX (encodeXNN n1 x nn) = x := by
  have := nn.isLt
  apply Fin.ext
  rw [fieldX_val, encodeXNN_toNat h]
  omega

@[simp] theorem fieldNN_encodeXNN (x : RegIdx) (nn : Byte) : fieldNN (encodeXNN n1 x nn) = nn := by
  have := nn.isLt
  apply BitVec.eq_of_toNat_eq
  rw [fieldNN_toNat, encodeXNN_toNat h]
  omega

@[simp] theorem fieldN1_encodeXYN (x y : RegIdx) (n : Fin 16) : fieldN1 (encodeXYN n1 x y n) = n1 := by
  rw [fieldN1_eq, encodeXYN_toNat h]
  omega

@[simp] theorem fieldX_encodeXYN (x y : RegIdx) (n : Fin 16) : fieldX (encodeXYN n1 x y n) = x := by
  apply Fin.ext
  rw [fieldX_val, encodeXYN_toNat h]
  omega

@[simp] theorem fieldY_encodeXYN (x y : RegIdx) (n : Fin 16) : fieldY (encodeXYN n1 x y n) = y := by
  apply Fin.ext
  rw [fieldY_val, encodeXYN_toNat h]
  omega

@[simp] theorem fieldN_encodeXYN (x y : RegIdx) (n : Fin 16) : fieldN (encodeXYN n1 x y n) = n := by
  apply Fin.ext
  rw [fieldN_val, encodeXYN_toNat h]
  omega

end

/-- An instruction's opcode decodes to the instruction: its fields select the decoder's branch, by n1 alone or by n4 or NN too. -/
theorem decodeWord_encode (i : Instr) : decodeWord (encode i) = .ok i := by
  cases i with
  | nop | cls | ret => rfl
  | jp | call | ldI | jpV0 | seImm | sneImm | ldImm | addImm | rnd | drw | seReg | sneReg => simp [encode, decodeWord]
  | ldReg | orReg | andReg | xorReg | addReg | subReg | shrReg | subnReg | shlReg => simp [encode, decodeWord, decode8]
  | skp | sknp => simp [encode, decodeWord, decodeE]
  | ldVxDt | ldVxKey | ldDtVx | ldStVx | addI | ldFont | bcd | stRegs | ldRegs => simp [encode, decodeWord, decodeF]

/-- Settles O2: the opcode decodes by its fields, and its two bytes make the opcode again. -/
theorem decodeOfEncodeIsIdentity : Obligations.DecodeOfEncodeIsIdentity := by
  unfold Obligations.DecodeOfEncodeIsIdentity
  intro i rest
  refine ⟨decodeWord_encode i, ?_⟩
  simp [encodeBytes, decodeBytes, decodeWord_encode]

/-! ### A word from its fields -/

section

variable {op : Word} {n1 : Nat} (h : fieldN1 op = n1)
include h

theorem encodeNNN_fields : encodeNNN n1 (fieldNNN op) = op := by
  subst h
  apply BitVec.eq_of_toNat_eq
  rw [encodeNNN, BitVec.toNat_ofNat, fieldN1_eq, fieldNNN_toNat]
  omega

theorem encodeXNN_fields : encodeXNN n1 (fieldX op) (fieldNN op) = op := by
  subst h
  apply BitVec.eq_of_toNat_eq
  rw [encodeXNN, BitVec.toNat_ofNat, fieldN1_eq, fieldX_val, fieldNN_toNat]
  omega

theorem encodeXYN_fields : encodeXYN n1 (fieldX op) (fieldY op) (fieldN op) = op := by
  subst h
  apply BitVec.eq_of_toNat_eq
  rw [encodeXYN, BitVec.toNat_ofNat, fieldN1_eq, fieldX_val, fieldY_val, fieldN_val]
  omega

theorem encodeXNN_of_fieldNN {nn : Byte} (hnn : fieldNN op = nn) : encodeXNN n1 (fieldX op) nn = op :=
  hnn ▸ encodeXNN_fields h

theorem encodeXYN_of_fieldN {n : Fin 16} (hn : fieldN op = n) : encodeXYN n1 (fieldX op) (fieldY op) n = op :=
  hn ▸ encodeXYN_fields h

end

/-! ### What the decoder can answer -/

/-- What decoding `op` may answer: an instruction whose opcode is `op`, or a refusal that names `op`. -/
inductive Faithful (op : Word) : Except DecodeError Instr → Prop
  | ok {i : Instr} (h : encode i = op) : Faithful op (.ok i)
  | undefined : Faithful op (.error (.undefinedOpcode op))

theorem decode0_faithful (op : Word) : Faithful op (decode0 op) := by
  unfold decode0
  split_ifs with h0 h1 h2
  · exact .ok h0.symm
  · exact .ok h1.symm
  · exact .ok h2.symm
  · exact .undefined

theorem decode8_faithful {op : Word} (h : fieldN1 op = 8) : Faithful op (decode8 op) := by
  unfold decode8
  split
  case h_10 => exact .undefined
  all_goals next hn => exact .ok (encodeXYN_of_fieldN h (Fin.ext hn))

theorem decodeE_faithful {op : Word} (h : fieldN1 op = 0xE) : Faithful op (decodeE op) := by
  unfold decodeE
  split_ifs with h0 h1
  · exact .ok (encodeXNN_of_fieldNN h h0)
  · exact .ok (encodeXNN_of_fieldNN h h1)
  · exact .undefined

theorem decodeF_faithful {op : Word} (h : fieldN1 op = 0xF) : Faithful op (decodeF op) := by
  unfold decodeF
  split_ifs
  case neg => exact .undefined
  all_goals next hnn => exact .ok (encodeXNN_of_fieldNN h hnn)

/-- The decoder answers an instruction whose opcode is the word, or refuses the word by name (rules R36, R38). -/
theorem decodeWord_faithful (op : Word) : Faithful op (decodeWord op) := by
  unfold decodeWord
  split
  next => exact decode0_faithful op
  next h => exact .ok (encodeNNN_fields h)
  next h => exact .ok (encodeNNN_fields h)
  next h => exact .ok (encodeXNN_fields h)
  next h => exact .ok (encodeXNN_fields h)
  next h =>
    split_ifs with hn
    · exact .ok (encodeXYN_of_fieldN h hn)
    · exact .undefined
  next h => exact .ok (encodeXNN_fields h)
  next h => exact .ok (encodeXNN_fields h)
  next h => exact decode8_faithful h
  next h =>
    split_ifs with hn
    · exact .ok (encodeXYN_of_fieldN h hn)
    · exact .undefined
  next h => exact .ok (encodeNNN_fields h)
  next h => exact .ok (encodeNNN_fields h)
  next h => exact .ok (encodeXNN_fields h)
  next h => exact .ok (encodeXYN_fields h)
  next h => exact decodeE_faithful h
  next h => exact decodeF_faithful h
  next => exact .undefined

theorem Faithful.encode_eq {op : Word} {i : Instr} (h : Faithful op (.ok i)) : encode i = op := by
  cases h with
  | ok h => exact h

theorem Faithful.error_eq {op : Word} {e : DecodeError} (h : Faithful op (.error e)) : e = .undefinedOpcode op := by
  cases h with
  | undefined => rfl

/-- Settles O3: the decoder answers no instruction but one whose opcode is the word. -/
theorem encodeOfDecodeIsIdentity : Obligations.EncodeOfDecodeIsIdentity := by
  unfold Obligations.EncodeOfDecodeIsIdentity
  intro op i hd
  exact (hd ▸ decodeWord_faithful op).encode_eq

/-- The decoder undoes the encoder and nothing else (rule R36). -/
theorem decodeWord_eq_ok_iff {op : Word} {i : Instr} : decodeWord op = .ok i ↔ encode i = op :=
  ⟨encodeOfDecodeIsIdentity op i, fun h => h ▸ decodeWord_encode i⟩

/-! ### What a row selects -/

/-- The instruction of `i`'s row whose operands are the fields of `op` (rules R34, R36). -/
def Instr.withFieldsOf (i : Instr) (op : Word) : Instr :=
  match i with
  | .nop => .nop
  | .cls => .cls
  | .ret => .ret
  | .jp _ => .jp (fieldNNN op)
  | .call _ => .call (fieldNNN op)
  | .seImm _ _ => .seImm (fieldX op) (fieldNN op)
  | .sneImm _ _ => .sneImm (fieldX op) (fieldNN op)
  | .seReg _ _ => .seReg (fieldX op) (fieldY op)
  | .ldImm _ _ => .ldImm (fieldX op) (fieldNN op)
  | .addImm _ _ => .addImm (fieldX op) (fieldNN op)
  | .ldReg _ _ => .ldReg (fieldX op) (fieldY op)
  | .orReg _ _ => .orReg (fieldX op) (fieldY op)
  | .andReg _ _ => .andReg (fieldX op) (fieldY op)
  | .xorReg _ _ => .xorReg (fieldX op) (fieldY op)
  | .addReg _ _ => .addReg (fieldX op) (fieldY op)
  | .subReg _ _ => .subReg (fieldX op) (fieldY op)
  | .shrReg _ _ => .shrReg (fieldX op) (fieldY op)
  | .subnReg _ _ => .subnReg (fieldX op) (fieldY op)
  | .shlReg _ _ => .shlReg (fieldX op) (fieldY op)
  | .sneReg _ _ => .sneReg (fieldX op) (fieldY op)
  | .ldI _ => .ldI (fieldNNN op)
  | .jpV0 _ => .jpV0 (fieldNNN op)
  | .rnd _ _ => .rnd (fieldX op) (fieldNN op)
  | .drw _ _ _ => .drw (fieldX op) (fieldY op) (fieldN op)
  | .skp _ => .skp (fieldX op)
  | .sknp _ => .sknp (fieldX op)
  | .ldVxDt _ => .ldVxDt (fieldX op)
  | .ldVxKey _ => .ldVxKey (fieldX op)
  | .ldDtVx _ => .ldDtVx (fieldX op)
  | .ldStVx _ => .ldStVx (fieldX op)
  | .addI _ => .addI (fieldX op)
  | .ldFont _ => .ldFont (fieldX op)
  | .bcd _ => .bcd (fieldX op)
  | .stRegs _ => .stRegs (fieldX op)
  | .ldRegs _ => .ldRegs (fieldX op)

@[simp] theorem Instr.row_withFieldsOf (i : Instr) (op : Word) : (i.withFieldsOf op).row = i.row := by
  cases i <;> rfl

section

variable {m : String} {op mask p : Word} {n1 : Nat}

/-- A row selects the words that its mask makes its pattern (rule R36). -/
theorem and_mask_of_selected (h : (Row.mk m mask p).selectedBy op = true) : op &&& mask = p := eq_of_beq h

/-- A row whose mask keeps n1 selects words with the pattern's n1 only. -/
theorem fieldN1_of_selected (hm : mask.extractLsb' 12 4 = BitVec.allOnes 4)
    (h : (Row.mk m mask p).selectedBy op = true) : fieldN1 op = fieldN1 p :=
  congrArg BitVec.toNat (field_of_mask 12 4 hm (and_mask_of_selected h))

/-- A row with the mask FFFF selects its pattern only. -/
theorem eq_of_selected (h : (Row.mk m 0xFFFF#16 p).selectedBy op = true) : p = op :=
  (and_mask_of_selected h).symm.trans (and_FFFF op)

/-- A word that an NNN row selects is put together from its NNN. -/
theorem encodeNNN_of_selected (h : (Row.mk m 0xF000#16 p).selectedBy op = true) (hp : fieldN1 p = n1) :
    encodeNNN n1 (fieldNNN op) = op :=
  encodeNNN_fields ((fieldN1_of_selected (by decide) h).trans hp)

/-- A word that an XNN row selects is put together from its X and NN. -/
theorem encodeXNN_of_selected (h : (Row.mk m 0xF000#16 p).selectedBy op = true) (hp : fieldN1 p = n1) :
    encodeXNN n1 (fieldX op) (fieldNN op) = op :=
  encodeXNN_fields ((fieldN1_of_selected (by decide) h).trans hp)

/-- A word that the DXYN row selects is put together from its X, Y and N. -/
theorem encodeXYN_of_selected (h : (Row.mk m 0xF000#16 p).selectedBy op = true) (hp : fieldN1 p = n1) :
    encodeXYN n1 (fieldX op) (fieldY op) (fieldN op) = op :=
  encodeXYN_fields ((fieldN1_of_selected (by decide) h).trans hp)

/-- A word that an XY row selects is put together from its X and Y beside the row's n4. -/
theorem encodeXY_of_selected {n : Fin 16} (h : (Row.mk m 0xF00F#16 p).selectedBy op = true) (hp : fieldN1 p = n1)
    (hn : fieldN p = n) : encodeXYN n1 (fieldX op) (fieldY op) n = op := by
  have hfield : op.extractLsb' 0 4 = p.extractLsb' 0 4 := field_of_mask 0 4 (by decide) (and_mask_of_selected h)
  refine encodeXYN_of_fieldN ((fieldN1_of_selected (by decide) h).trans hp) (Eq.trans (Fin.ext ?_) hn)
  exact congrArg BitVec.toNat hfield

/-- A word that an E or F row selects is put together from its X beside the row's NN. -/
theorem encodeX_of_selected {nn : Byte} (h : (Row.mk m 0xF0FF#16 p).selectedBy op = true) (hp : fieldN1 p = n1)
    (hnn : fieldNN p = nn) : encodeXNN n1 (fieldX op) nn = op := by
  have hfield : fieldNN op = fieldNN p := field_of_mask 0 8 (by decide) (and_mask_of_selected h)
  exact encodeXNN_of_fieldNN ((fieldN1_of_selected (by decide) h).trans hp) (hfield.trans hnn)

end

/-- A word that a row selects is the opcode of the row's instruction with the word's fields (rules R34, R36). -/
theorem encode_withFieldsOf {i : Instr} {op : Word} (h : i.row.selectedBy op = true) : encode (i.withFieldsOf op) = op := by
  cases i with
  | nop | cls | ret => exact eq_of_selected h
  | jp | call | ldI | jpV0 => exact encodeNNN_of_selected h rfl
  | seImm | sneImm | ldImm | addImm | rnd => exact encodeXNN_of_selected h rfl
  | drw => exact encodeXYN_of_selected h rfl
  | seReg | ldReg | orReg | andReg | xorReg | addReg | subReg | shrReg | subnReg | shlReg | sneReg =>
    exact encodeXY_of_selected h rfl rfl
  | skp | sknp | ldVxDt | ldVxKey | ldDtVx | ldStVx | addI | ldFont | bcd | stRegs | ldRegs =>
    exact encodeX_of_selected h rfl rfl

/-- A word that a row selects decodes to the row's instruction with the word's fields (rules R34, R36). -/
theorem decodeWord_of_selected {i : Instr} {op : Word} (h : i.row.selectedBy op = true) :
    decodeWord op = .ok (i.withFieldsOf op) :=
  decodeWord_eq_ok_iff.2 (encode_withFieldsOf h)

/-- The encoding clause of every instruction: the opcodes of its row decode to it with their fields (rule R36). -/
theorem patternDecodes_row (i : Instr) : PatternDecodes i.row.mask i.row.pattern i.withFieldsOf :=
  fun _ h => decodeWord_of_selected (beq_of_eq h)

/-! ### The opcode table -/

open Laws.EncodesRow in
/-- Every instruction's opcode is selected by its own row (rules R34, R36). -/
theorem Instr.row_selectedBy_encode (i : Instr) : i.row.selectedBy (encode i) = true := by
  cases i with
  | nop | cls | ret => rfl
  | jp | call | ldI | jpV0 => exact nnn_selected (by decide) (by decide) _
  | seImm | sneImm | ldImm | addImm | rnd => exact xnn_selected (by decide) (by decide) _ _
  | drw => exact xyn_selected (by decide) (by decide) _ _ _
  | seReg | ldReg | orReg | andReg | xorReg | addReg | subReg | shrReg | subnReg | shlReg | sneReg =>
    exact xy_selected _ (by decide) (by decide) _ _
  | skp | sknp | ldVxDt | ldVxKey | ldDtVx | ldStVx | addI | ldFont | bcd | stRegs | ldRegs =>
    exact xsub_selected _ (by decide) (by decide) _

/-- Every instruction stands for a row of the table: the one of its own constructor (rule R36). -/
theorem Instr.row_mem_opcodeTable (i : Instr) : i.row ∈ opcodeTable := by
  cases i <;> exact of_decide_eq_true rfl

/-- A defined word is one that the row of some instruction selects (rule R36). -/
theorem isDefined_iff {op : Word} : isDefined op = true ↔ ∃ i : Instr, i.row.selectedBy op = true := by
  rw [isDefined, List.any_eq_true]
  constructor
  · rintro ⟨r, hr, h⟩
    obtain ⟨i, -, rfl⟩ := List.mem_map.1 hr
    exact ⟨i, h⟩
  · rintro ⟨i, h⟩
    exact ⟨i.row, i.row_mem_opcodeTable, h⟩

/-- The row of the instruction that a word decodes to selects the word. -/
theorem selected_of_decodeWord {op : Word} {i : Instr} (h : decodeWord op = .ok i) : i.row.selectedBy op = true :=
  decodeWord_eq_ok_iff.1 h ▸ i.row_selectedBy_encode

/-- The decoder accepts exactly the defined words (rules R36, R38). -/
theorem isDefined_iff_decodes {op : Word} : isDefined op = true ↔ ∃ i, decodeWord op = .ok i :=
  isDefined_iff.trans
    ⟨fun ⟨_, h⟩ => ⟨_, decodeWord_of_selected h⟩, fun ⟨i, h⟩ => ⟨i, selected_of_decodeWord h⟩⟩

/-- An undefined word is refused by name (rule R38). -/
theorem decodeWord_of_undefined {op : Word} (h : isDefined op = false) : decodeWord op = .error (.undefinedOpcode op) := by
  cases hd : decodeWord op with
  | ok i => exact absurd (isDefined_iff_decodes.2 ⟨i, hd⟩) (by simp [h])
  | error e =>
    have he : Faithful op (.error e) := hd ▸ decodeWord_faithful op
    rw [he.error_eq]

/-- Settles O4: a selected word decodes by its row, and a decoded word is selected by its instruction's row. -/
theorem decoderAgreesWithOpcodeTable : Obligations.DecoderAgreesWithOpcodeTable := by
  unfold Obligations.DecoderAgreesWithOpcodeTable
  exact fun op => ⟨isDefined_iff_decodes, fun i h => ⟨i.row_mem_opcodeTable, selected_of_decodeWord h⟩,
    decodeWord_of_undefined⟩

/-- Two rows that select one word are the same row: the word decodes to an instruction of each. -/
theorem row_eq_of_selected {r q : Row} {op : Word} (hr : r ∈ opcodeTable) (hq : q ∈ opcodeTable)
    (hrop : r.selectedBy op = true) (hqop : q.selectedBy op = true) : r = q := by
  obtain ⟨i, -, rfl⟩ := List.mem_map.1 hr
  obtain ⟨j, -, rfl⟩ := List.mem_map.1 hq
  have heq : i.withFieldsOf op = j.withFieldsOf op :=
    Except.ok.inj ((decodeWord_of_selected hrop).symm.trans (decodeWord_of_selected hqop))
  simpa using congrArg Instr.row heq

/-- No row stands twice in the table: the patterns differ. -/
theorem opcodeTable_nodup : opcodeTable.Nodup :=
  List.Nodup.of_map Row.pattern (by decide)

/-- Settles O5: the rows that match a word are all the same, and no row stands twice in the table. -/
theorem noOpcodeMatchesTwoRows : Obligations.NoOpcodeMatchesTwoRows := by
  unfold Obligations.NoOpcodeMatchesTwoRows
  intro op
  rw [← List.toFinset_card_of_nodup (opcodeTable_nodup.filter _), Finset.card_le_one]
  intro r hr q hq
  simp only [List.mem_toFinset, List.mem_filter] at hr hq
  exact row_eq_of_selected hr.1 hq.1 hr.2 hq.2

end Sys2Proof

/-! SUPPORT. An undefined opcode in a step, and the shifts with the bit they drop (rules R38, R50, R59, R61, R83). -/

namespace Sys2Proof.Machine

variable {i : Instr} {s : State}

/-- Fetch reads the opcode at a `pc` that it accepts (rule R26). -/
theorem fetch_of_fetchable (h : s.Fetchable) : fetch s = .ok s.opcodeAt := by
  obtain ⟨hlt, heven⟩ := h
  rw [fetch, if_neg (by omega), if_neg (by omega)]

/-- An opcode that the decoder refuses is latched in the state before the tick, with the opcode as its value (rules R38, R80,
R83). -/
theorem step_of_decode_error {e : DecodeError} (hf : s.fault = none) (hfetch : s.Fetchable)
    (hd : decodeWord s.opcodeAt = .error e) :
    step s = .next (s.latch .undefinedOpcode (some s.opcodeAt) s.opcodeAt.toNat) := by
  simp only [step, runTick, hf, fetch_of_fetchable hfetch, hd]

/-- Settles O9: the step fetches the opcode, and the decoder refuses a word that no row matches. -/
theorem undefinedOpcodeIsLatched : Obligations.UndefinedOpcodeIsLatched := by
  unfold Obligations.UndefinedOpcodeIsLatched
  exact fun s hf hfetch hundef => step_of_decode_error hf hfetch (decodeWord_of_undefined hundef)

/-! ### Results and flags -/

/-- The flag in VF as a number (rule R6). -/
theorem flagByte_toNat (f : Bool) : (flagByte f).toNat = f.toNat := by
  cases f <;> rfl

/-- The bit a right shift drops is the remainder of the halving (rule R59). -/
theorem droppedLow_toNat (b : Byte) : (droppedLow b).toNat = b.toNat % 2 := by
  rw [droppedLow, BitVec.getLsbD, Nat.toNat_testBit, pow_zero, Nat.div_one]

/-- The bit a left shift drops is the carry of the doubling (rule R61). -/
theorem droppedHigh_toNat (b : Byte) : (droppedHigh b).toNat = b.toNat / 128 := by
  have := b.isLt
  simp only [droppedHigh, BitVec.getLsbD, Nat.toNat_testBit]
  omega

/-- An instruction that writes a result to `V[X]` and then a flag to VF leaves both, the result unless X is VF, and latches
nothing (rule R50). -/
theorem completes_writeResultFlag {x : RegIdx} {r : Byte} {f : Bool} (h : exec i s = .next (s.writeResultFlag x r f)) :
    Completes i s fun t => (x ≠ vf → (t.readV x).toNat = r.toNat) ∧ (t.readV vf).toNat = f.toNat ∧ t.fault = s.fault := by
  refine ⟨_, h, fun hx => ?_, ?_, rfl⟩
  · rw [State.readV_writeResultFlag_result s r f hx]
  · rw [State.readV_writeResultFlag_vf, flagByte_toNat]

/-- Settles O26: the encodings are those of the two rows, Y is not read, and the halves and bits are the numbers'. -/
theorem shiftsPutDroppedBitInVf : Obligations.ShiftsPutDroppedBitInVf := by
  unfold Obligations.ShiftsPutDroppedBitInVf
  refine ⟨patternDecodes_row (.shrReg 0 0), patternDecodes_row (.shlReg 0 0), fun x y z s => ⟨rfl, rfl, ?_, ?_⟩⟩
  · have hhalf : (BitVec.ofNat 8 ((s.readV x).toNat / 2)).toNat = (s.readV x).toNat / 2 := by
      have := (s.readV x).isLt
      rw [BitVec.toNat_ofNat]
      omega
    rw [← hhalf, ← droppedLow_toNat]
    exact completes_writeResultFlag rfl
  · have hdouble : (BitVec.ofNat 8 ((s.readV x).toNat * 2)).toNat = 2 * (s.readV x).toNat % 256 := by
      rw [BitVec.toNat_ofNat, Nat.mul_comm]
    rw [← hdouble, ← droppedHigh_toNat]
    exact completes_writeResultFlag rfl

end Sys2Proof.Machine

/-! SUPPORT. Control flow: a skip, a jump to an immediate, and what a call and a return do at each depth of the stack (rules R41 to
R49, R79, R83). -/

namespace Sys2Proof.Machine

variable {i : Instr} {s : State} {k : Fin 16}

/-! ### Jumps and skips -/

/-- A zero-extended immediate keeps its number (rule R35). -/
@[simp] theorem zext12_toNat (nnn : Imm12) : (zext12 nnn).toNat = nnn.toNat := by
  have := nnn.isLt
  rw [zext12, BitVec.toNat_setWidth]
  omega

/-- A skip moves `pc` past the next instruction when its condition holds, and latches nothing (rules R45 to R48). -/
theorem completes_skipIf {c : Bool} (h : exec i s = .next (s.skipIf c)) :
    Completes i s fun t => t.fault = s.fault ∧ t.pc = if c then s.pc + 2#16 else s.pc :=
  ⟨_, h, s.skipIf_fault c, s.skipIf_pc c⟩

/-- Settles O14: 0000 answers the state it runs on. -/
theorem nopDoesNothing : Obligations.NopDoesNothing := by
  unfold Obligations.NopDoesNothing
  exact ⟨patternDecodes_row .nop, fun s => rfl⟩

/-- Settles O15: the jump's target is the immediate, zero-extended. -/
theorem jumpSetsPc : Obligations.JumpSetsPc := by
  unfold Obligations.JumpSetsPc
  exact ⟨patternDecodes_row (.jp 0), fun nnn s => ⟨_, rfl, zext12_toNat nnn, rfl⟩⟩

/-- Settles O16: each of the four is a skip on its own comparison, on equality for 3XNN and 5XY0 and on difference for 4XNN and
9XY0. -/
theorem skipsTestTheirOperands : Obligations.SkipsTestTheirOperands := by
  unfold Obligations.SkipsTestTheirOperands
  refine ⟨patternDecodes_row (.seImm 0 0), patternDecodes_row (.sneImm 0 0), patternDecodes_row (.seReg 0 0),
    patternDecodes_row (.sneReg 0 0), fun x y nn s => ⟨?_, ?_, ?_, ?_⟩⟩
  · simpa using completes_skipIf (i := .seImm x nn) (s := s) rfl
  · simpa using completes_skipIf (i := .sneImm x nn) (s := s) rfl
  · simpa using completes_skipIf (i := .seReg x y) (s := s) rfl
  · simpa using completes_skipIf (i := .sneReg x y) (s := s) rfl

/-- Settles O17: a byte and a 12-bit immediate sum to at most 4350, so the sum fits 16 bits. -/
theorem computedJumpAddsV0 : Obligations.ComputedJumpAddsV0 := by
  unfold Obligations.ComputedJumpAddsV0
  refine ⟨patternDecodes_row (.jpV0 0), fun nnn s => ?_⟩
  have hle : (s.readV 0).toNat + nnn.toNat ≤ 4350 := by
    have := (s.readV 0).isLt
    have := nnn.isLt
    omega
  have hpc : (BitVec.ofNat 16 ((s.readV 0).toNat + nnn.toNat)).toNat = (s.readV 0).toNat + nnn.toNat := by
    rw [BitVec.toNat_ofNat]
    omega
  exact ⟨_, rfl, hpc, hpc.trans_le hle, rfl⟩

/-! ### Calls and returns -/

/-- A return with k + 1 entries on the stack takes `pc` from entry k and leaves the entry there (rule R42). -/
theorem exec_ret_of_sp (h : s.sp.val = k.val + 1) :
    exec .ret s = .next { s with sp := k.castSucc, pc := s.stack[k] } := by
  have hk : s.sp.val - 1 = k.val := by omega
  have hne : s.sp.val ≠ 0 := by omega
  simp only [exec, execRet, hne, hk, dite_false]
  rfl

/-- A return on the empty stack takes a fault (rule R42). -/
theorem exec_ret_of_empty (h : s.sp.val = 0) : exec .ret s = takeFault .ret .stackUnderflow 0 s := by
  simp only [exec, execRet, h, dite_true]

/-- A call with k entries on the stack writes the return address to entry k and jumps (rule R44). -/
theorem exec_call_of_sp (nnn : Imm12) (h : s.sp.val = k.val) :
    exec (.call nnn) s = .next { s with stack := s.stack.set k.val s.pc, sp := k.succ, pc := zext12 nnn } := by
  have hne : k.val ≠ 16 := k.isLt.ne
  simp only [exec, execCall, h, hne, dite_false]
  rfl

/-- A call on the full stack takes a fault (rule R44). -/
theorem exec_call_of_full (nnn : Imm12) (h : s.sp.val = 16) :
    exec (.call nnn) s = takeFault (.call nnn) .stackOverflow 16 s := by
  simp only [exec, execCall, h, dite_true]

/-- Settles O18, from what a return does on a stack with entries and on the empty one. -/
theorem returnPopsOrUnderflows : Obligations.ReturnPopsOrUnderflows := by
  unfold Obligations.ReturnPopsOrUnderflows
  refine ⟨patternDecodes_row .ret, fun s => ⟨fun k h => ⟨_, exec_ret_of_sp h, rfl, rfl, rfl⟩, fun h => ?_⟩⟩
  rw [exec_ret_of_empty h, takeFault_eq, encode]

/-- Settles O19, from what a call does on a stack with room and on the full one. -/
theorem callPushesOrOverflows : Obligations.CallPushesOrOverflows := by
  unfold Obligations.CallPushesOrOverflows
  refine ⟨patternDecodes_row (.call 0), fun nnn s => ⟨fun k h => ⟨_, exec_call_of_sp nnn h, ?_, fun j hj => ?_, rfl,
    zext12_toNat nnn⟩, fun h => ?_⟩⟩
  · exact Vector.getElem_set_self k.isLt
  · exact Vector.getElem_set_ne k.isLt j.isLt (Fin.val_ne_of_ne hj.symm)
  · rw [exec_call_of_full nnn h, takeFault_eq]

/-- Settles O20: the call leaves its return address in the entry at the old `sp`, which is the entry that the return reads. -/
theorem callThenReturnResumesAfterCall : Obligations.CallThenReturnResumesAfterCall := by
  unfold Obligations.CallThenReturnResumesAfterCall
  intro nnn s hlt
  obtain ⟨k, hk⟩ : ∃ k : Fin 16, s.sp = k.castSucc := ⟨⟨s.sp.val, hlt⟩, rfl⟩
  refine ⟨_, exec_call_of_sp nnn (congrArg Fin.val hk), fun u hstack hsp => ?_⟩
  refine ⟨_, exec_ret_of_sp (congrArg Fin.val hsp), ?_, hk.symm⟩
  exact (congrArg (·[k]) hstack).trans (Vector.getElem_set_self k.isLt)

end Sys2Proof.Machine

/-! SUPPORT. The register loads and the ALU: a result alone in its register, and a wrapped result beside the carry or the
not-borrow (rules R50 to R62). -/

namespace Sys2Proof.Machine

variable {i : Instr} {s : State} {x : RegIdx} {r : Byte} {n : Nat} {f : Bool}

/-- An instruction that writes `V[X]` alone leaves its result there, and VF unless X is VF, and latches nothing (rules R5, R6). -/
theorem completes_writeV (h : exec i s = .next (s.writeV x r)) :
    Completes i s fun t => t.readV x = r ∧ (x ≠ vf → t.readV vf = s.readV vf) ∧ t.fault = s.fault :=
  ⟨_, h, s.readV_writeV_same x r, fun hx => s.readV_writeV_other r hx.symm, s.writeV_fault x r⟩

/-- A result narrowed to 8 bits is the exact one modulo 256, and VF holds the flag's byte (rules R6, R50). -/
theorem completes_writeResultFlag_ofNat (h : exec i s = .next (s.writeResultFlag x (BitVec.ofNat 8 n) f)) :
    Completes i s fun t => (x ≠ vf → (t.readV x).toNat = n % 256) ∧ t.readV vf = flagByte f ∧ t.fault = s.fault := by
  obtain ⟨t, ht, hresult, hflag, hfault⟩ := completes_writeResultFlag h
  exact ⟨t, ht, fun hx => (hresult hx).trans (BitVec.toNat_ofNat n 8),
    BitVec.eq_of_toNat_eq (hflag.trans (flagByte_toNat f).symm), hfault⟩

/-- The carry's byte is 1 when the exact sum passes 255 (rule R57). -/
theorem flagByte_carries (a b : Byte) : flagByte (carries a b) = if a.toNat + b.toNat > 255 then 1#8 else 0#8 := by
  simp only [flagByte, carries, decide_eq_true_eq]

/-- The not-borrow's byte is 0 when the exact difference is negative, so 1 for equal operands (rules R58, R60). -/
theorem flagByte_noBorrow (a b : Byte) : flagByte (noBorrow a b) = if a.toNat < b.toNat then 0#8 else 1#8 := by
  by_cases hlt : a.toNat < b.toNat
  · simp [flagByte, noBorrow, hlt]
  · simp [flagByte, noBorrow, hlt]

/-- Settles O22: each of the five writes its result to `V[X]` alone. -/
theorem loadAndLogicResults : Obligations.LoadAndLogicResults := by
  unfold Obligations.LoadAndLogicResults
  exact ⟨patternDecodes_row (.ldImm 0 0), patternDecodes_row (.ldReg 0 0), patternDecodes_row (.orReg 0 0),
    patternDecodes_row (.andReg 0 0), patternDecodes_row (.xorReg 0 0), fun x y nn s =>
      ⟨completes_writeV rfl, completes_writeV rfl, completes_writeV rfl, completes_writeV rfl, completes_writeV rfl⟩⟩

/-- Settles O23: the sum, narrowed to 8 bits, is written to `V[X]` alone. -/
theorem addImmediateWrapsWithoutFlag : Obligations.AddImmediateWrapsWithoutFlag := by
  unfold Obligations.AddImmediateWrapsWithoutFlag
  refine ⟨patternDecodes_row (.addImm 0 0), fun x nn s => ?_⟩
  obtain ⟨t, ht, hsum, hvf, hfault⟩ := completes_writeV (i := .addImm x nn) (s := s) rfl
  exact ⟨t, ht, (congrArg BitVec.toNat hsum).trans (BitVec.toNat_ofNat _ 8), hvf, hfault⟩

/-- Settles O24: the sum is narrowed to 8 bits, and the flag is the carry of the operands as they were. -/
theorem addSetsCarry : Obligations.AddSetsCarry := by
  unfold Obligations.AddSetsCarry
  refine ⟨patternDecodes_row (.addReg 0 0), fun x y s => ?_⟩
  rw [← flagByte_carries]
  exact completes_writeResultFlag_ofNat rfl

/-- Settles O25: the difference is narrowed to 8 bits, and the flag is the not-borrow of the operands in the instruction's
order. -/
theorem subtractsSetNotBorrow : Obligations.SubtractsSetNotBorrow := by
  unfold Obligations.SubtractsSetNotBorrow
  refine ⟨patternDecodes_row (.subReg 0 0), patternDecodes_row (.subnReg 0 0), fun x y s => ?_⟩
  rw [← flagByte_noBorrow, ← flagByte_noBorrow]
  exact ⟨completes_writeResultFlag_ofNat rfl, completes_writeResultFlag_ofNat rfl⟩

/-- Settles O27: a bit that NN does not have is cleared whatever byte is drawn. -/
theorem randomIsMaskedDraw : Obligations.RandomIsMaskedDraw := by
  unfold Obligations.RandomIsMaskedDraw
  refine ⟨patternDecodes_row (.rnd 0 0), fun x nn s => ?_⟩
  have hread : (s.draw.2.writeV x (s.draw.1 &&& nn)).readV x = Config.randomByte s.draws &&& nn :=
    State.readV_writeV_same _ x _
  refine ⟨_, rfl, hread, fun b hb => ?_, rfl, rfl⟩
  rw [hread, BitVec.getLsbD_and, hb, Bool.and_false]

end Sys2Proof.Machine

/-! SUPPORT. The index register and the register block: what is written to I alone, the decimal digits stored at I, and the block
of V0 to VX stored at I and loaded from it (rules R22, R63 to R68). -/

namespace Sys2Proof.Machine

variable {i : Instr} {s : State} {x : RegIdx} {k n : Nat}

/-! ### The index register -/

/-- ANNN, FX1E and FX29 are one write to I (rules R63 to R65). -/
theorem exec_eq_setI (s : State) {nnn : Imm12} (hi : i ∈ [Instr.ldI nnn, .addI x, .ldFont x]) :
    ∃ a, exec i s = .next { s with i := a } := by
  simp only [List.mem_cons, List.not_mem_nil, or_false] at hi
  rcases hi with rfl | rfl | rfl <;> exact ⟨_, rfl⟩

/-- A write to I leaves every other part (rule R8). -/
theorem Part.same_setI {p : Part} (a : Word) (h : p ≠ .i) : p.Same s { s with i := a } := by
  cases p with
  | i => exact absurd rfl h
  | _ => rfl

/-- An instruction that writes I alone leaves its value there, keeps VF, and latches nothing. -/
theorem completes_setI {a : Word} (h : exec i s = .next { s with i := a }) (ha : a.toNat = n) :
    Completes i s fun t => t.i.toNat = n ∧ t.readV vf = s.readV vf ∧ t.fault = s.fault :=
  ⟨_, h, ha, rfl, rfl⟩

/-- Five times a byte fits 16 bits, so a glyph's address is exact (rules R19, R65). -/
theorem glyphAddr_toNat (b : Byte) : (glyphAddr b).toNat = b.toNat * 5 := by
  have := b.isLt
  rw [glyphAddr, BitVec.toNat_ofNat]
  omega

/-- Settles O29: each of the three writes I alone, and of their values only FX1E's sum can pass 16 bits. -/
theorem indexRegisterResults : Obligations.IndexRegisterResults := by
  unfold Obligations.IndexRegisterResults
  exact ⟨patternDecodes_row (.ldI 0), patternDecodes_row (.addI 0), patternDecodes_row (.ldFont 0), fun nnn x s =>
    ⟨completes_setI rfl (zext12_toNat nnn), completes_setI rfl (BitVec.toNat_ofNat _ 16),
      completes_setI rfl (glyphAddr_toNat (s.readV x))⟩⟩

/-- Settles O30, from the frame of a write to I. -/
theorem indexRegisterFrame : Obligations.IndexRegisterFrame := by
  unfold Obligations.IndexRegisterFrame
  intro nnn x s t p i hi ht hp
  obtain ⟨a, ha⟩ := exec_eq_setI s hi
  obtain rfl := Host.Outcome.next.inj (ha.symm.trans ht)
  exact Part.same_setI a hp

/-! ### Blocks at I -/

/-- A block whose last address exists is in range (rule R22). -/
theorem State.dataInRange_of_lt (h : s.i.toNat + n < 4096) : s.DataInRange (n + 1) :=
  State.dataInRange_succ.2 h

/-- Byte k of the block at I is the one that memory holds at I + k (rule R68). -/
theorem State.bytesAtI_getElem (s : State) (h : k < (s.bytesAtI n).length) :
    (s.bytesAtI n)[k] = s.mem.read (s.i.toNat + k) := by
  simp [State.bytesAtI, State.dataAddr]

/-- FX33 with all three bytes in memory stores the hundreds, tens and ones, and keeps I (rule R66). -/
theorem completes_bcd (x : RegIdx) (h : s.i.toNat + 2 < 4096) :
    Completes (.bcd x) s fun t =>
      (t.mem.read s.i.toNat).toNat = (s.readV x).toNat / 100 ∧
      (t.mem.read (s.i.toNat + 1)).toNat = (s.readV x).toNat / 10 % 10 ∧
      (t.mem.read (s.i.toNat + 2)).toNat = (s.readV x).toNat % 10 ∧ t.i = s.i := by
  have hread : ∀ k, ∀ hk : k < (decimalDigits (s.readV x)).length,
      (Memory.store s.mem s.i.toNat (decimalDigits (s.readV x))).read (s.i.toNat + k) = (decimalDigits (s.readV x))[k] :=
    fun k hk => Memory.read_store_getElem s.mem s.i.toNat hk
  obtain ⟨hhundreds, htens, hones⟩ := decimalDigits_toNat (s.readV x)
  exact ⟨_, exec_bcd_of_inRange x (State.dataInRange_of_lt h), (congrArg BitVec.toNat (hread 0 (by simp))).trans hhundreds,
    (congrArg BitVec.toNat (hread 1 (by simp))).trans htens, (congrArg BitVec.toNat (hread 2 (by simp))).trans hones, rfl⟩

/-- FX55 with all its bytes in memory stores `V[k]` at I + k for each k up to X, and keeps I (rule R67). -/
theorem completes_stRegs (h : s.i.toNat + x.val < 4096) :
    Completes (.stRegs x) s fun t =>
      (∀ k : Fin 16, k.val ≤ x.val → t.mem.read (s.i.toNat + k.val) = s.readV k) ∧ t.i = s.i := by
  refine ⟨_, exec_stRegs_of_inRange (State.dataInRange_of_lt h), fun k hk => ?_, rfl⟩
  have hlt : k.val < (s.regBlock x).length := by
    rw [State.regBlock_length]
    exact Nat.lt_succ_of_le hk
  exact (Memory.read_store_getElem s.mem s.i.toNat hlt).trans (s.regBlock_getElem x k hlt)

/-- FX65 with all its bytes in memory loads `V[k]` from I + k for each k up to X, and keeps I (rule R68). -/
theorem completes_ldRegs (h : s.i.toNat + x.val < 4096) :
    Completes (.ldRegs x) s fun t =>
      (∀ k : Fin 16, k.val ≤ x.val → t.readV k = s.mem.read (s.i.toNat + k.val)) ∧ t.i = s.i := by
  refine ⟨_, exec_ldRegs_of_inRange (State.dataInRange_of_lt h), fun k hk => ?_, rfl⟩
  have hlt : 0 ≤ k.val ∧ k.val < 0 + (s.bytesAtI (x.val + 1)).length := by
    rw [State.bytesAtI_length]
    omega
  exact ((getElem_writeRegs s.v 0 _ k).trans (dif_pos hlt)).trans (s.bytesAtI_getElem _)

/-- Settles O31: the digits stored are those of the number, so a hundred, ten and one of each make it up. -/
theorem bcdStoresDecimalDigits : Obligations.BcdStoresDecimalDigits := by
  unfold Obligations.BcdStoresDecimalDigits
  refine ⟨patternDecodes_row (.bcd 0), fun x s h => ?_⟩
  obtain ⟨t, ht, hhundreds, htens, hones, hi⟩ := completes_bcd x h
  refine ⟨t, ht, ?_, ?_, ?_, hi⟩ <;> omega

/-- Settles O32, from what FX55 does when its bytes exist. -/
theorem storeRegistersWritesBlock : Obligations.StoreRegistersWritesBlock := by
  unfold Obligations.StoreRegistersWritesBlock
  exact ⟨patternDecodes_row (.stRegs 0), fun x s h => completes_stRegs h⟩

/-- Settles O33, from what FX65 does when its bytes exist. -/
theorem loadRegistersReadsBlock : Obligations.LoadRegistersReadsBlock := by
  unfold Obligations.LoadRegistersReadsBlock
  exact ⟨patternDecodes_row (.ldRegs 0), fun x s h => completes_ldRegs h⟩

/-- Settles O35: the store keeps I, so the load reads at I + k the byte that the store put there. -/
theorem storeThenLoadRestoresRegisters : Obligations.StoreThenLoadRestoresRegisters := by
  unfold Obligations.StoreThenLoadRestoresRegisters
  intro x s h
  obtain ⟨t, ht, hstored, hti⟩ := completes_stRegs h
  refine ⟨t, ht, fun u hui hum => ?_⟩
  have hi : u.i = s.i := hui.trans hti
  obtain ⟨w, hw, hloaded, -⟩ := completes_ldRegs (s := u) (x := x) (by rwa [hi])
  refine ⟨w, hw, fun k hk => ?_⟩
  calc w.readV k = u.mem.read (u.i.toNat + k.val) := hloaded k hk
    _ = t.mem.read (s.i.toNat + k.val) := by rw [hum, hi]
    _ = s.readV k := hstored k hk

end Sys2Proof.Machine

/-! SUPPORT. The display: 00E0, what one draw does cell by cell, two equal draws, and the bits of a sprite in any order (rules
R13, R69 to R71). -/

namespace Sys2Proof.Machine

variable {s u : State} {x y : RegIdx} {n : Fin 16} {k : Fin 2048}

/-! ### Cells and flags -/

/-- Every cell has a number (rule R13). -/
theorem exists_cellNumber (px : Fin 64) (py : Fin 32) : ∃ k, cellColumn k = px ∧ cellRow k = py := by
  refine ⟨⟨px.val + 64 * py.val, by omega⟩, Fin.ext ?_, Fin.ext ?_⟩
  · simp only [cellColumn]
    omega
  · simp only [cellRow]
    omega

theorem flagByte_eq_one_iff {f : Bool} : flagByte f = 1#8 ↔ f = true := by
  cases f <;> decide

/-- A new display leaves every part but the cells in which it differs. -/
theorem Part.same_display {p : Part} {d : Display} (h : ∀ k, p = .cell k → d.cellAt k = s.display.cellAt k) :
    p.Same s { s with display := d } := by
  cases p with
  | cell k => exact h k rfl
  | _ => rfl

/-- Settles O38: the new display is the clear one, and it is all that is new. -/
theorem clearUnlightsEveryCell : Obligations.ClearUnlightsEveryCell := by
  unfold Obligations.ClearUnlightsEveryCell
  refine ⟨patternDecodes_row .cls, fun s => ⟨_, rfl, fun k => Display.cell_clear _ _, fun p hp => ?_⟩⟩
  exact Part.same_display fun k hk => absurd hk (hp k)

/-! ### One draw -/

/-- What DXYN makes of the display, and whether it collides, when its rows exist (rule R70). -/
def State.spriteDraw (s : State) (x y : RegIdx) (n : Fin 16) : Draw :=
  drawRows (s.readV x).toNat (s.readV y).toNat (s.bytesAtI n.val) (s.display, false)

/-- A draw whose rows exist writes the display and VF (rule R70). -/
theorem exec_drw_of_inRange (h : s.DataInRange n.val) :
    exec (.drw x y n) s =
      .next ({ s with display := (s.spriteDraw x y n).1 }.writeV vf (flagByte (s.spriteDraw x y n).2)) :=
  (execDrw_eq x y n s).trans (if_pos h)

/-- The rows of a sprite are fewer than the rows of the display. -/
theorem State.bytesAtI_length_le (s : State) (n : Fin 16) : (s.bytesAtI n.val).length ≤ 32 := by
  rw [State.bytesAtI_length]
  omega

/-- A draw inverts the cells that the sprite covers and no other, and collides exactly when one of them was lit (rule R70). -/
theorem State.spriteDraw_spec (s : State) (x y : RegIdx) (n : Fin 16) :
    (∀ k, s.SpriteCovers x y n k → (s.spriteDraw x y n).1.cellAt k = !s.display.cellAt k) ∧
    (∀ k, ¬ s.SpriteCovers x y n k → (s.spriteDraw x y n).1.cellAt k = s.display.cellAt k) ∧
    ((s.spriteDraw x y n).2 = true ↔ ∃ k, s.SpriteCovers x y n k ∧ s.display.cellAt k = true) := by
  obtain ⟨hcovered, hother, hcollides⟩ := drawRows_spec (s.readV x).toNat (s.readV y).toNat (s.bytesAtI n.val)
    (s.bytesAtI_length_le n) (s.display, false)
  refine ⟨fun k => hcovered _ _, fun k => hother _ _, hcollides.trans ⟨?_, ?_⟩⟩
  · rintro (hfalse | ⟨px, py, hcov, hlit⟩)
    · exact absurd hfalse Bool.false_ne_true
    · obtain ⟨k, rfl, rfl⟩ := exists_cellNumber px py
      exact ⟨k, hcov, hlit⟩
  · rintro ⟨k, hcov, hlit⟩
    exact .inr ⟨_, _, hcov, hlit⟩

/-- Settles O39, from what one draw does cell by cell. -/
theorem drawFlipsExactlyCoveredCells : Obligations.DrawFlipsExactlyCoveredCells := by
  unfold Obligations.DrawFlipsExactlyCoveredCells
  refine ⟨patternDecodes_row (.drw 0 0 0), fun x y n s h => ?_⟩
  obtain ⟨hcovered, hother, hcollides⟩ := s.spriteDraw_spec x y n
  refine ⟨_, exec_drw_of_inRange h, hcovered, hother, fun hlit => ?_, fun hunlit => ?_⟩
  · rw [State.readV_writeV_same, hcollides.2 hlit, flagByte, if_pos rfl]
  · rw [State.readV_writeV_same, Bool.eq_false_iff.2 (mt hcollides.1 hunlit), flagByte, if_neg Bool.false_ne_true]

/-- Settles O42: the new display differs under the sprite alone, and the fault changes `pc` and the latch alone. -/
theorem displayFamilyFrame : Obligations.DisplayFamilyFrame := by
  unfold Obligations.DisplayFamilyFrame
  intro x y n s t p
  refine ⟨fun ht hp => ?_, fun h ht hvf hp => ?_, fun hpos hend ht hpc hfault => ?_⟩
  · obtain rfl := Host.Outcome.next.inj ht
    exact Part.same_display fun k hk => absurd hk (hp k)
  · obtain rfl := Host.Outcome.next.inj ((exec_drw_of_inRange h).symm.trans ht)
    obtain ⟨-, hother, -⟩ := s.spriteDraw_spec x y n
    exact (Part.same_display fun k hk => hother k (hp k hk)).trans (Part.same_writeV _ hvf)
  · have hout : ¬ s.DataInRange (Instr.drw x y n).dataBytes := not_or.2 ⟨hpos, Nat.not_le.2 hend⟩
    exact Part.same_takeFault ((exec_of_not_inRange (x := x) (y := y) (n := n) (by simp) hout).symm.trans ht) hpc hfault

/-! ### Two equal draws -/

/-- Which cells a sprite covers depends on memory, I and the two coordinates alone (rule R70). -/
theorem State.spriteCovers_congr (hm : u.mem = s.mem) (hi : u.i = s.i) (hx : u.readV x = s.readV x)
    (hy : u.readV y = s.readV y) : u.SpriteCovers x y n k ↔ s.SpriteCovers x y n k := by
  simp only [State.SpriteCovers, State.bytesAtI, State.dataAddr, hm, hi, hx, hy]

/-- A draw over the display that an equal draw has left restores the display of before, and collides exactly where the first draw
lit a pixel (rules R70, R71; log entry 8). -/
theorem completes_drw_again (h : s.DataInRange n.val) (hd : u.display = (s.spriteDraw x y n).1) (hm : u.mem = s.mem)
    (hi : u.i = s.i) (hx : u.readV x = s.readV x) (hy : u.readV y = s.readV y) :
    Completes (.drw x y n) u fun w =>
      w.display = s.display ∧ (w.readV vf = 1#8 ↔ ∃ k, s.SpriteCovers x y n k ∧ s.display.cellAt k = false) := by
  have hrange : u.DataInRange n.val := by rwa [State.dataInRange_iff, hi]
  obtain ⟨hcovered, hother, -⟩ := s.spriteDraw_spec x y n
  obtain ⟨hcovered', hother', hcollides'⟩ := u.spriteDraw_spec x y n
  simp only [State.spriteCovers_congr hm hi hx hy, hd] at hcovered' hother' hcollides'
  refine ⟨_, exec_drw_of_inRange hrange, Display.ext_cellAt fun k => ?_, ?_⟩
  · by_cases hk : s.SpriteCovers x y n k
    · exact (hcovered' k hk).trans (by rw [hcovered k hk, Bool.not_not])
    · exact (hother' k hk).trans (hother k hk)
  · rw [State.readV_writeV_same, flagByte_eq_one_iff, hcollides']
    refine exists_congr fun k => and_congr_right fun hk => ?_
    rw [hcovered k hk, Bool.not_eq_true']

/-- Settles O40, from what a draw over an equal draw does. -/
theorem drawTwiceRestoresDisplay : Obligations.DrawTwiceRestoresDisplay := by
  unfold Obligations.DrawTwiceRestoresDisplay
  exact fun x y n s h => ⟨_, exec_drw_of_inRange h, fun u hd hm hi hx hy => completes_drw_again h hd hm hi hx hy⟩

/-- Refutes O41: with every pixel lit, the first draw of glyph 0's top row only unlights, so the second has nothing lit to
collide with. -/
theorem not_secondDrawAlwaysCollides : ¬ Obligations.SecondDrawAlwaysCollides := by
  unfold Obligations.SecondDrawAlwaysCollides
  intro h
  let s : State := { State.reset with display := Vector.replicate 32 (Vector.replicate 64 true) }
  have hrange : (1 : Fin 16).val = 0 ∨ s.i.toNat + (1 : Fin 16).val ≤ 4096 := by decide
  obtain ⟨t, ht, hsecond⟩ := h 0 1 1 s hrange ⟨0, by decide, by decide⟩
  obtain ⟨w, hw, hvf⟩ := hsecond { s with display := t.display } rfl rfl rfl rfl rfl
  have hrestores := (drawTwiceRestoresDisplay 0 1 1 s hrange).of_exec ht
  obtain ⟨-, hiff⟩ := (hrestores { s with display := t.display } rfl rfl rfl rfl rfl).of_exec hw
  obtain ⟨k, -, hunlit⟩ := hiff.1 hvf
  have hlit : s.display.cellAt k = true := by simp [s, Display.cellAt, Display.cell]
  exact Bool.false_ne_true (hunlit.symm.trans hlit)

/-! ### A sprite on itself -/

/-- The columns of a sprite stay distinct when wrapped: 8 columns on a display of 64 (rule R71). -/
theorem wrapped_column_inj {x0 c c' : Nat} (hc : c < 8) (hc' : c' < 8) (h : (x0 + c) % 64 = (x0 + c') % 64) : c = c' := by
  omega

/-- The rows of a sprite stay distinct when wrapped: at most 32 rows on a display of 32 (rule R71). -/
theorem wrapped_row_inj {y0 r r' : Nat} (hr : r < 32) (hr' : r' < 32) (h : (y0 + r) % 32 = (y0 + r') % 32) : r = r' := by
  omega

/-- The pixels of a sprite's set bits are the ones that it covers (rule R70). -/
theorem covers_iff_exists_bit {x0 y0 : Nat} {rows : List Byte} {bits : List (Nat × Nat)}
    (hbits : ∀ r c, (r, c) ∈ bits ↔ ∃ h : r < rows.length, c < 8 ∧ spriteBit rows[r] c = true) (px : Fin 64) (py : Fin 32) :
    Covers x0 y0 rows px py ↔ ∃ b ∈ bits, px = wrapX (x0 + b.2) ∧ py = wrapY (y0 + b.1) := by
  constructor
  · rintro ⟨r, c, hr, hc, hx, hy, hbit⟩
    exact ⟨(r, c), (hbits r c).2 ⟨hr, hc, hbit⟩, Fin.ext hx.symm, Fin.ext hy.symm⟩
  · rintro ⟨⟨r, c⟩, hmem, rfl, rfl⟩
    obtain ⟨hr, hc, hbit⟩ := (hbits r c).1 hmem
    exact ⟨r, c, hr, hc, rfl, rfl, hbit⟩

/-- The set bits of a sprite, drawn in any order, give the display and the collision that its rows give (rule R71). -/
theorem drawPixels_eq_drawRows (x0 y0 : Nat) {rows : List Byte} (hlen : rows.length ≤ 32) {bits : List (Nat × Nat)}
    (hnd : bits.Nodup) (hbits : ∀ r c, (r, c) ∈ bits ↔ ∃ h : r < rows.length, c < 8 ∧ spriteBit rows[r] c = true) (p : Draw) :
    bits.foldl (fun q b => drawPixel (x0 + b.2) (y0 + b.1) q) p = drawRows x0 y0 rows p := by
  have hdistinct : bits.Pairwise fun a b =>
      ¬ (wrapX (x0 + a.2) = wrapX (x0 + b.2) ∧ wrapY (y0 + a.1) = wrapY (y0 + b.1)) := by
    refine hnd.imp_of_mem fun {a b} ha hb hne ⟨hx, hy⟩ => hne ?_
    obtain ⟨har, hac, -⟩ := (hbits a.1 a.2).1 ha
    obtain ⟨hbr, hbc, -⟩ := (hbits b.1 b.2).1 hb
    exact Prod.ext (wrapped_row_inj (har.trans_le hlen) (hbr.trans_le hlen) (congrArg Fin.val hy))
      (wrapped_column_inj hac hbc (congrArg Fin.val hx))
  obtain ⟨hcovered, hother, hcollides⟩ := drawPixels_spec x0 y0 bits hdistinct p
  obtain ⟨hcovered', hother', hcollides'⟩ := drawRows_spec x0 y0 rows hlen p
  have hcov := covers_iff_exists_bit (x0 := x0) (y0 := y0) hbits
  refine Prod.ext (Display.ext_cell fun px py => ?_) (Bool.eq_iff_iff.2 (hcollides.trans (Iff.trans ?_ hcollides'.symm)))
  · by_cases h : Covers x0 y0 rows px py
    · rw [hcovered px py ((hcov px py).1 h), hcovered' px py h]
    · rw [hother px py (mt (hcov px py).2 h), hother' px py h]
  · refine or_congr Iff.rfl ⟨?_, ?_⟩
    · rintro ⟨b, hb, hlit⟩
      exact ⟨_, _, (hcov _ _).2 ⟨b, hb, rfl, rfl⟩, hlit⟩
    · rintro ⟨px, py, h, hlit⟩
      obtain ⟨b, hb, rfl, rfl⟩ := (hcov px py).1 h
      exact ⟨b, hb, hlit⟩

/-- A sprite row that is not zero has a set bit in some column. -/
theorem exists_spriteBit {b : Byte} (h : b ≠ 0#8) : ∃ c, c < 8 ∧ spriteBit b c = true := by
  by_contra hnone
  refine h (BitVec.eq_of_getLsbD_eq fun j hj => ?_)
  have hcol : 7 - (7 - j) = j := by omega
  have hbit : ¬ spriteBit b (7 - j) = true := fun hset => hnone ⟨7 - j, by omega, hset⟩
  rw [spriteBit, hcol] at hbit
  exact (Bool.eq_false_iff.2 hbit).trans BitVec.getLsbD_zero.symm

/-- A sprite with a row that is not zero covers some cell. -/
theorem State.exists_spriteCovers (s : State) (x y : RegIdx) (h : ∃ r, r < n.val ∧ s.mem.read (s.dataAddr + r) ≠ 0#8) :
    ∃ k, s.SpriteCovers x y n k := by
  obtain ⟨r, hr, hb⟩ := h
  obtain ⟨c, hc, hbit⟩ := exists_spriteBit hb
  obtain ⟨k, hcol, hrow⟩ := exists_cellNumber (wrapX ((s.readV x).toNat + c)) (wrapY ((s.readV y).toNat + r))
  have hlen : r < (s.bytesAtI n.val).length := by rwa [State.bytesAtI_length]
  refine ⟨k, r, c, hlen, hc, (congrArg Fin.val hcol).symm, (congrArg Fin.val hrow).symm, ?_⟩
  rw [State.bytesAtI_getElem]
  exact hbit

/-- Settles O60: wrapped columns and rows stay distinct, so the order of the bits does not matter; the last clause is what a draw
over an equal draw does when the first has only lit pixels, and at least one. -/
theorem spriteNeverOverlapsItself : Obligations.SpriteNeverOverlapsItself := by
  unfold Obligations.SpriteNeverOverlapsItself
  refine fun x y n s h => ⟨fun r c r' c' hr hc hr' hc' hx hy => ?_, _, exec_drw_of_inRange h, rfl, fun bits hnd hbits => ?_,
    fun hset hunlit u hd hm hi hx hy => ?_⟩
  · exact ⟨wrapped_row_inj (by omega) (by omega) hy, wrapped_column_inj hc hc' hx⟩
  · have hrows : ∀ r c, (r, c) ∈ bits ↔
        ∃ h : r < (s.bytesAtI n.val).length, c < 8 ∧ spriteBit (s.bytesAtI n.val)[r] c = true := by
      simpa only [State.bytesAtI_getElem, State.bytesAtI_length, exists_prop, State.dataAddr] using hbits
    rw [drawPixels_eq_drawRows _ _ (s.bytesAtI_length_le n) hnd hrows, State.readV_writeV_same]
    rfl
  · obtain ⟨w, hw, hdisplay, hvf⟩ := completes_drw_again h hd hm hi hx hy
    obtain ⟨k, hk⟩ := s.exists_spriteCovers x y hset
    exact ⟨w, hw, hvf.2 ⟨k, hk, hunlit k hk⟩, fun j hj => (congrArg (·.cellAt j) hdisplay).trans (hunlit j hj)⟩

end Sys2Proof.Machine

/-! SUPPORT. The keys and the timers: a key test on each side of 16, the key scan that finds the lowest held key, and the frames of
a write to `pc` or to a timer (rules R72 to R77, R79, R83). -/

namespace Sys2Proof.Machine

variable {i : Instr} {s t : State} {x : RegIdx} {k : Fin 16}

/-! ### Key tests -/

/-- EX9E and EXA1 are the key test, each on its own state of the key (rules R72, R73). -/
theorem exec_eq_skipOnKey (s : State) (hi : i ∈ [Instr.skp x, .sknp x]) : ∃ held, exec i s = skipOnKey i x held s := by
  simp only [List.mem_cons, List.not_mem_nil, or_false] at hi
  rcases hi with rfl | rfl
  · exact ⟨true, rfl⟩
  · exact ⟨false, rfl⟩

/-- A test of an existing key is a skip on the state of that key (rules R72, R73). -/
theorem skipOnKey_of_key (i : Instr) (held : Bool) (h : (s.readV x).toNat = k.val) :
    skipOnKey i x held s = .next (s.skipIf (s.keys[k] == held)) := by
  simp only [skipOnKey_eq, h, k.isLt, dite_true, Fin.getElem_fin]

/-- A key number of 16 or more takes a fault, whatever the keys (rules R72, R73, R79). -/
theorem skipOnKey_of_ge (i : Instr) (held : Bool) (h : 16 ≤ (s.readV x).toNat) :
    skipOnKey i x held s = takeFault i .keyIndexOutOfRange (s.readV x).toNat s :=
  (skipOnKey_eq i x held s).trans (dif_neg (Nat.not_lt.2 h))

/-- An instruction that tests an existing key moves `pc` past the next instruction when the key is in the state it tests for, and
latches nothing. -/
theorem completes_skipOnKey {held : Bool} (hexec : exec i s = skipOnKey i x held s) (h : (s.readV x).toNat = k.val) :
    Completes i s fun t => t.pc = (if s.keys[k] == held then s.pc + 2#16 else s.pc) ∧ t.fault = s.fault :=
  ⟨_, hexec.trans (skipOnKey_of_key i held h), s.skipIf_pc _, s.skipIf_fault _⟩

/-- Settles O43: below 16 the test is a skip, for EX9E on the key held and for EXA1 on the key not held; from 16 up it is a
fault. -/
theorem keySkipsTestKeyOrFault : Obligations.KeySkipsTestKeyOrFault := by
  unfold Obligations.KeySkipsTestKeyOrFault
  refine ⟨patternDecodes_row (.skp 0), patternDecodes_row (.sknp 0), fun x s => ⟨fun k hk => ⟨?_, ?_⟩, fun h i hi => ?_⟩⟩
  · simpa only [beq_true] using completes_skipOnKey (i := .skp x) rfl hk
  · simpa only [beq_iff_eq, ← Bool.not_eq_true, ite_not] using completes_skipOnKey (i := .sknp x) rfl hk
  · obtain ⟨held, hexec⟩ := exec_eq_skipOnKey s hi
    rw [hexec, skipOnKey_of_ge i held h, takeFault_eq]

/-! ### Timers -/

/-- Settles O44: each of the three is one write, and a timer is no register. -/
theorem timerAccessCopies : Obligations.TimerAccessCopies := by
  unfold Obligations.TimerAccessCopies
  exact ⟨patternDecodes_row (.ldVxDt 0), patternDecodes_row (.ldDtVx 0), patternDecodes_row (.ldStVx 0), fun x s =>
    ⟨⟨_, rfl, s.readV_writeV_same x s.dt, rfl, rfl⟩, ⟨_, rfl, rfl, rfl, rfl, rfl⟩, ⟨_, rfl, rfl, rfl, rfl, rfl⟩⟩⟩

/-! ### The key wait -/

/-- The key scan finds a key exactly when it is the lowest held one (rule R75). -/
theorem firstHeldKey_eq_some_iff {keys : Vector Bool 16} :
    firstHeldKey keys = some k ↔ keys[k] = true ∧ ∀ j : Fin 16, j < k → keys[j] = false := by
  rw [firstHeldKey, ← Fin.find?_eq_find?_finRange, Fin.find?_eq_some_iff]

/-- FX0A writes the number of the key that the scan finds (rule R75). -/
theorem exec_ldVxKey_of_some (x : RegIdx) (h : firstHeldKey s.keys = some k) :
    exec (.ldVxKey x) s = .next (s.writeV x (BitVec.ofNat 8 k.val)) := by
  simp only [exec, execLdVxKey, h]

/-- FX0A goes back to itself when the scan finds no key (rule R75). -/
theorem exec_ldVxKey_of_none (x : RegIdx) (h : firstHeldKey s.keys = none) : exec (.ldVxKey x) s = .next s.rewind := by
  simp only [exec, execLdVxKey, h]

/-- Settles O45: the scan finds the lowest held key, whose number fits a byte, or finds none. -/
theorem keyWaitTakesLowestHeldKey : Obligations.KeyWaitTakesLowestHeldKey := by
  unfold Obligations.KeyWaitTakesLowestHeldKey
  refine ⟨patternDecodes_row (.ldVxKey 0), fun x s => ⟨fun k hheld hlower => ?_, fun hnone => ?_⟩⟩
  · refine ⟨_, exec_ldVxKey_of_some x (firstHeldKey_eq_some_iff.2 ⟨hheld, hlower⟩), ?_, rfl, rfl⟩
    rw [State.readV_writeV_same, BitVec.toNat_ofNat]
    omega
  · exact exec_ldVxKey_of_none x (firstHeldKey_eq_none hnone)

/-! ### Frames -/

/-- A jump leaves every part but `pc` (rule R27). -/
theorem Part.same_jump {p : Part} (a : Word) (h : p ≠ .pc) : p.Same s (s.jump a) := by
  cases p with
  | pc => exact absurd rfl h
  | _ => rfl

/-- A write to the delay timer leaves every other part (rule R10). -/
theorem Part.same_setDt {p : Part} (b : Byte) (h : p ≠ .dt) : p.Same s { s with dt := b } := by
  cases p with
  | dt => exact absurd rfl h
  | _ => rfl

/-- A write to the sound timer leaves every other part (rule R11). -/
theorem Part.same_setSt {p : Part} (b : Byte) (h : p ≠ .st) : p.Same s { s with st := b } := by
  cases p with
  | st => exact absurd rfl h
  | _ => rfl

/-- A test of an existing key leaves every part but `pc` (rules R72, R73). -/
theorem Part.same_skipOnKey {p : Part} {held : Bool} (hlt : (s.readV x).toNat < 16) (ht : skipOnKey i x held s = .next t)
    (hp : p ≠ .pc) : p.Same s t := by
  have hskip := skipOnKey_of_key (k := ⟨(s.readV x).toNat, hlt⟩) i held rfl
  obtain rfl := Host.Outcome.next.inj (hskip.symm.trans ht)
  rw [State.skipIf_eq_jump]
  exact Part.same_jump _ hp

/-- FX0A leaves every part but its register and `pc` (rule R75). -/
theorem Part.same_ldVxKey {p : Part} (ht : exec (.ldVxKey x) s = .next t) (hx : p ≠ .v x) (hpc : p ≠ .pc) : p.Same s t := by
  cases hscan : firstHeldKey s.keys with
  | some k =>
    obtain rfl := Host.Outcome.next.inj ((exec_ldVxKey_of_some x hscan).symm.trans ht)
    exact Part.same_writeV _ hx
  | none =>
    obtain rfl := Host.Outcome.next.inj ((exec_ldVxKey_of_none x hscan).symm.trans ht)
    exact Part.same_jump (s.pc - 2#16) hpc

/-- Settles O47, from the frames of the key test, of the fault it takes, of the key wait, and of the writes to a register and to a
timer. -/
theorem keyAndTimerFamilyFrame : Obligations.KeyAndTimerFamilyFrame := by
  unfold Obligations.KeyAndTimerFamilyFrame
  intro x s t p
  refine ⟨fun i hi ht hpc => ?_, fun ht hx => ?_, fun ht hx hpc => Part.same_ldVxKey ht hx hpc, fun ht hdt => ?_,
    fun ht hst => ?_⟩
  · obtain ⟨held, hexec⟩ := exec_eq_skipOnKey s hi
    have htest : skipOnKey i x held s = .next t := hexec.symm.trans ht
    exact ⟨fun hlt => Part.same_skipOnKey hlt htest hpc, fun hge hfault =>
      Part.same_takeFault ((skipOnKey_of_ge i held hge).symm.trans htest) hpc hfault⟩
  · obtain rfl := Host.Outcome.next.inj ht
    exact Part.same_writeV _ hx
  · obtain rfl := Host.Outcome.next.inj ht
    exact Part.same_setDt _ hdt
  · obtain rfl := Host.Outcome.next.inj ht
    exact Part.same_setSt _ hst

end Sys2Proof.Machine

/-! SUPPORT. The faults of a tick: when an instruction raises one, that a tick under no latch either takes the one fault that has a
cause or answers Ok, and that a latched tick stands still (rules R78 to R84). -/

namespace Sys2Proof.Machine

variable {i : Instr} {s t : State} {c : FaultCode} {n : Nat} {r : FaultRecord}

/-! ### What a tick answers -/

theorem tickAnswer_of_fault (h : t.fault = some r) : tickAnswer t = .err r := by
  simp only [tickAnswer, h]

/-- The host's `tick` is one step and the latch that it leaves (rules R40, R84). -/
theorem hostCall_tick_of_step (h : step s = .next t) : hostCall .tick s = (t, tickAnswer t) := by
  simp only [hostCall, h]

/-- Settles O10: a latched step ends in the state it began in, and so does any number of them. -/
theorem latchedMachineStaysHalted : Obligations.LatchedMachineStaysHalted := by
  unfold Obligations.LatchedMachineStaysHalted
  intro s r h
  have hstep : step s = .next s := step_latched h
  exact ⟨run_of_step_self hstep, by rw [hostCall_tick_of_step hstep, tickAnswer_of_fault h]⟩

/-- Settles O13: every instruction completes with one of its effects, and a step stands still, latches, or executes one. -/
theorem everyStepAnswersANextState : Obligations.EveryStepAnswersANextState := by
  unfold Obligations.EveryStepAnswersANextState
  have hexec : ∀ (i : Instr) (s : State), ∃ t, exec i s = .next t := fun i s => (exec_effect i s).imp fun _ h => h.1
  refine ⟨hexec, fun s => ?_⟩
  rcases step_cases s with ⟨_, _, hs⟩ | ⟨_, _, hs⟩ | ⟨_, _, _, hs⟩ | ⟨_, _, _, hs⟩ | ⟨_, i, _, hs⟩
  · exact ⟨_, hs⟩
  · exact ⟨_, hs⟩
  · exact ⟨_, hs⟩
  · exact ⟨_, hs⟩
  · rw [hs]
    exact hexec i s.advance

/-! ### What an instruction raises -/

/-- Instruction `i`, in the state after fetch, has a reason of rule R79 to fault, with the value that the rule records. -/
inductive Raises (s : State) : Instr → FaultCode → Nat → Prop
  | underflow (h : s.sp.val = 0) : Raises s .ret .stackUnderflow 0
  | overflow (nnn : Imm12) (h : s.sp.val = 16) : Raises s (.call nnn) .stackOverflow 16
  | memory (i : Instr) (h : ¬ s.DataInRange i.dataBytes) : Raises s i .memoryOutOfRange (max s.i.toNat Config.memSize)
  | key (i : Instr) (x : RegIdx) (hi : i ∈ [Instr.skp x, .sknp x]) (h : 16 ≤ (s.readV x).toNat) :
      Raises s i .keyIndexOutOfRange (s.readV x).toNat

/-- An instruction whose data bytes do not all exist takes a fault: only the block accesses have data bytes (rules R22, R28). -/
theorem exec_of_data_not_inRange (h : ¬ s.DataInRange i.dataBytes) :
    exec i s = takeFault i .memoryOutOfRange (max s.i.toNat Config.memSize) s := by
  cases i with
  | drw x y n => exact exec_of_not_inRange (x := x) (y := y) (n := n) (by simp) h
  | bcd x | stRegs x | ldRegs x => exact exec_of_not_inRange (x := x) (y := 0) (n := 0) (by simp) h
  | _ => exact absurd (.inl rfl) h

/-- An instruction that has a reason to fault takes that fault (rules R79, R83). -/
theorem exec_of_raises (h : Raises s i c n) : exec i s = takeFault i c n s := by
  cases h with
  | underflow h => exact exec_ret_of_empty h
  | overflow nnn h => exact exec_call_of_full nnn h
  | memory i h => exact exec_of_data_not_inRange h
  | key i x hi h =>
    obtain ⟨held, hexec⟩ := exec_eq_skipOnKey s hi
    exact hexec.trans (skipOnKey_of_ge i held h)

/-- A key test has a key number of 16 or more, or latches nothing (rules R72, R73). -/
theorem raises_or_completes_of_keyTest {x : RegIdx} (s : State) (hi : i ∈ [Instr.skp x, .sknp x]) :
    (∃ c n, Raises s i c n) ∨ Completes i s fun t => t.fault = s.fault := by
  obtain hge | hlt := le_or_gt 16 (s.readV x).toNat
  · exact .inl ⟨_, _, .key i x hi hge⟩
  · obtain ⟨held, hexec⟩ := exec_eq_skipOnKey s hi
    obtain ⟨t, ht, -, hfault⟩ := completes_skipOnKey (k := ⟨_, hlt⟩) hexec rfl
    exact .inr ⟨t, ht, hfault⟩

/-- A block access has a byte out of range, or latches nothing when its bytes exist (rule R22). -/
theorem raises_or_completes_of_access (hexec : s.DataInRange i.dataBytes → Completes i s fun t => t.fault = s.fault) :
    (∃ c n, Raises s i c n) ∨ Completes i s fun t => t.fault = s.fault :=
  (Classical.em (s.DataInRange i.dataBytes)).symm.imp (fun h => ⟨_, _, .memory i h⟩) hexec

/-- An instruction without a reason to fault latches nothing (rule R81). -/
theorem raises_or_completes (i : Instr) (s : State) :
    (∃ c n, Raises s i c n) ∨ Completes i s fun t => t.fault = s.fault := by
  cases i with
  | ret =>
    by_cases hsp : s.sp.val = 0
    · exact .inl ⟨_, _, .underflow hsp⟩
    · exact .inr ⟨_, dif_neg hsp, rfl⟩
  | call nnn =>
    by_cases hsp : s.sp.val = 16
    · exact .inl ⟨_, _, .overflow nnn hsp⟩
    · exact .inr ⟨_, dif_neg hsp, rfl⟩
  | skp x | sknp x => exact raises_or_completes_of_keyTest (x := x) s (by simp)
  | bcd x => exact raises_or_completes_of_access fun h => ⟨_, exec_bcd_of_inRange x h, rfl⟩
  | stRegs x => exact raises_or_completes_of_access fun h => ⟨_, exec_stRegs_of_inRange h, rfl⟩
  | ldRegs x => exact raises_or_completes_of_access fun h => ⟨_, exec_ldRegs_of_inRange h, rfl⟩
  | drw x y n => exact raises_or_completes_of_access fun h => ⟨_, exec_drw_of_inRange h, rfl⟩
  | seImm | sneImm | seReg | sneReg => exact .inr ⟨_, rfl, State.skipIf_fault s _⟩
  | ldVxKey x =>
    cases hscan : firstHeldKey s.keys with
    | some k => exact .inr ⟨_, exec_ldVxKey_of_some x hscan, rfl⟩
    | none => exact .inr ⟨_, exec_ldVxKey_of_none x hscan, rfl⟩
  | nop | cls | jp | jpV0 | ldImm | addImm | ldReg | orReg | andReg | xorReg | addReg | subReg | shrReg | subnReg | shlReg
  | ldI | rnd | ldVxDt | ldDtVx | ldStVx | addI | ldFont => exact .inr ⟨_, rfl, rfl⟩

/-! ### What a tick raises -/

/-- A fault that the fetched instruction raises is a cause of the tick's fault, with the opcode at `pc` (rules R79, R80). -/
theorem Raises.faultCause (hi : s.Fetches i) (h : Raises s.advance i c n) : s.FaultCause ⟨c, s.pc, some s.opcodeAt, n⟩ := by
  refine ⟨rfl, ?_⟩
  cases h with
  | underflow h => exact ⟨hi, h, rfl, rfl⟩
  | overflow nnn h => exact ⟨nnn, hi, h, rfl, rfl⟩
  | memory i h => exact ⟨i, hi, h, rfl, rfl⟩
  | key i x hmem h =>
    simp only [List.mem_cons, List.not_mem_nil, or_false] at hmem
    rcases hmem with rfl | rfl
    · exact ⟨x, .inl hi, h, rfl, rfl⟩
    · exact ⟨x, .inr hi, h, rfl, rfl⟩

/-- A tick whose instruction raises a fault latches it in the state before the tick, with the opcode fetched (rules R80, R83). -/
theorem step_of_raises (hf : s.fault = none) (hi : s.Fetches i) (h : Raises s.advance i c n) :
    step s = .next { s with fault := some ⟨c, s.pc, some s.opcodeAt, n⟩ } := by
  have hop : encode i = s.opcodeAt := decodeWord_eq_ok_iff.1 hi.2
  rw [step_of_fetches hf hi, exec_of_raises h, takeFault, State.rewind_advance, hop, State.latch]

/-- A tick that has a cause to fault latches the record of that cause and changes nothing else (rules R79, R80, R82, R83). -/
theorem step_of_faultCause (hf : s.fault = none) (h : s.FaultCause r) : step s = .next { s with fault := some r } := by
  obtain ⟨code, pc, opcode, info⟩ := r
  obtain ⟨rfl, h⟩ := h
  cases code with
  | fetchOutOfRange =>
    obtain ⟨hout, rfl, rfl⟩ := h
    exact (fetchFaultsAreLatched s hf).1 hout
  | fetchMisaligned =>
    obtain ⟨hlt, hodd, rfl, rfl⟩ := h
    exact (fetchFaultsAreLatched s hf).2 hlt hodd
  | undefinedOpcode =>
    obtain ⟨hfetch, hundef, rfl, rfl⟩ := h
    exact undefinedOpcodeIsLatched s hf hfetch hundef
  | stackOverflow =>
    obtain ⟨nnn, hi, hsp, rfl, rfl⟩ := h
    exact step_of_raises hf hi (.overflow nnn hsp)
  | stackUnderflow =>
    obtain ⟨hi, hsp, rfl, rfl⟩ := h
    exact step_of_raises hf hi (.underflow hsp)
  | memoryOutOfRange =>
    obtain ⟨i, hi, hout, rfl, rfl⟩ := h
    exact step_of_raises hf hi (.memory i hout)
  | keyIndexOutOfRange =>
    obtain ⟨x, hi, hge, rfl, rfl⟩ := h
    obtain hi | hi := hi <;> exact step_of_raises hf hi (.key _ x (by simp) hge)

/-- A tick under no latch has a cause to fault, or leaves the latch clear (rules R79, R81). -/
theorem faultCause_or_step_unlatched (hf : s.fault = none) :
    (∃ r, s.FaultCause r) ∨ ∃ t, step s = .next t ∧ t.fault = none := by
  rcases step_cases s with ⟨r, hr, -⟩ | ⟨-, hout, -⟩ | ⟨-, hlt, hodd, -⟩ | ⟨-, hfetch, ⟨e, hd⟩, -⟩ | ⟨-, i, hi, hs⟩
  · cases hf.symm.trans hr
  · exact .inl ⟨⟨.fetchOutOfRange, s.pc, none, s.pc.toNat⟩, rfl, hout, rfl, rfl⟩
  · exact .inl ⟨⟨.fetchMisaligned, s.pc, none, s.pc.toNat⟩, rfl, hlt, hodd, rfl, rfl⟩
  · have hundef : isDefined s.opcodeAt = false := by
      refine Bool.eq_false_iff.2 fun hdef => ?_
      obtain ⟨i, hok⟩ := isDefined_iff_decodes.1 hdef
      cases hd.symm.trans hok
    exact .inl ⟨⟨.undefinedOpcode, s.pc, some s.opcodeAt, s.opcodeAt.toNat⟩, rfl, hfetch, hundef, rfl, rfl⟩
  · rcases raises_or_completes i s.advance with ⟨c, n, hraises⟩ | ⟨t, ht, hfault⟩
    · exact .inl ⟨_, hraises.faultCause hi⟩
    · exact .inr ⟨t, hs.trans ht, hfault.trans hf⟩

/-- A tick under no latch that leaves a record latched has that record's cause, and the record is all that it wrote (rules R79,
R83). -/
theorem faultCause_of_step (hf : s.fault = none) (hs : step s = .next t) (hr : t.fault = some r) :
    s.FaultCause r ∧ t = { s with fault := some r } := by
  rcases faultCause_or_step_unlatched hf with ⟨r', hcause⟩ | ⟨u, hu, hunlatched⟩
  · obtain rfl := Host.Outcome.next.inj ((step_of_faultCause hf hcause).symm.trans hs)
    obtain rfl := Option.some.inj hr
    exact ⟨hcause, rfl⟩
  · obtain rfl := Host.Outcome.next.inj (hu.symm.trans hs)
    cases hunlatched.symm.trans hr

/-- Settles O11: a record latched by the tick has a cause in the state before it, at that state's `pc`. -/
theorem faultingTickIsPrecise : Obligations.FaultingTickIsPrecise := by
  unfold Obligations.FaultingTickIsPrecise
  intro s t r hf hs hr
  obtain ⟨⟨hpc, -⟩, ht⟩ := faultCause_of_step hf hs hr
  exact ⟨ht, hpc, by rw [hostCall_tick_of_step hs, tickAnswer_of_fault hr]⟩

/-- Settles O12: a cause is taken, a fault taken has its cause, and without a cause the latch stays clear. -/
theorem tickFaultsExactlyForListedCauses : Obligations.TickFaultsExactlyForListedCauses := by
  unfold Obligations.TickFaultsExactlyForListedCauses
  exact fun s hf => ⟨fun r => ⟨fun hs => (faultCause_of_step hf hs rfl).1, step_of_faultCause hf⟩,
    (faultCause_or_step_unlatched hf).resolve_left⟩

end Sys2Proof.Machine

/-! SUPPORT. The frame of the control-flow family: the jumps and skips as one write to `pc`, and the writes of a return and of a
call (rules R41 to R49, R83). -/

namespace Sys2Proof.Machine

variable {i : Instr} {s t : State} {k : Fin 16}

/-- The no-op, the jumps and the skips on registers are one write to `pc` (rules R41, R43, R45 to R49). -/
theorem exec_eq_jump (s : State) {nnn : Imm12} {x y : RegIdx} {nn : Byte}
    (hi : i ∈ [Instr.nop, .jp nnn, .seImm x nn, .sneImm x nn, .seReg x y, .sneReg x y, .jpV0 nnn]) :
    ∃ a, exec i s = .next (s.jump a) := by
  have hskip : ∀ c, ∃ a, Host.Outcome.next (s.skipIf c) = (.next (s.jump a) : Result) := fun c =>
    ⟨_, congrArg _ (s.skipIf_eq_jump c)⟩
  simp only [List.mem_cons, List.not_mem_nil, or_false] at hi
  rcases hi with rfl | rfl | rfl | rfl | rfl | rfl | rfl
  · exact ⟨s.pc, rfl⟩
  · exact ⟨_, rfl⟩
  · exact hskip _
  · exact hskip _
  · exact hskip _
  · exact hskip _
  · exact ⟨_, rfl⟩

/-- A write to the stack pointer leaves every other part (rule R9). -/
theorem Part.same_setSp {p : Part} (sp : Fin 17) (h : p ≠ .sp) : p.Same s { s with sp := sp } := by
  cases p with
  | sp => exact absurd rfl h
  | _ => rfl

/-- A write to one stack entry leaves every other part (rule R9). -/
theorem Part.same_setStack {p : Part} (a : Word) (h : p ≠ .stack k) :
    p.Same s { s with stack := s.stack.set k.val a k.isLt } := by
  cases p with
  | stack j => exact Vector.getElem_set_ne k.isLt j.isLt fun e => h (congrArg Part.stack (Fin.ext e.symm))
  | _ => rfl

/-- A return from a stack with entries leaves every part but `pc` and `sp` (rule R42). -/
theorem Part.same_ret {p : Part} (h : s.sp.val ≠ 0) (ht : exec .ret s = .next t) (hpc : p ≠ .pc) (hsp : p ≠ .sp) :
    p.Same s t := by
  obtain ⟨k, hk⟩ : ∃ k : Fin 16, s.sp.val = k.val + 1 := ⟨⟨s.sp.val - 1, by omega⟩, by simp only; omega⟩
  obtain rfl := Host.Outcome.next.inj ((exec_ret_of_sp hk).symm.trans ht)
  exact (Part.same_setSp k.castSucc hsp).trans (Part.same_jump s.stack[k] hpc)

/-- A call on a stack with room leaves every part but `pc`, `sp` and the entry at `sp` (rule R44). -/
theorem Part.same_call {p : Part} {nnn : Imm12} (h : s.sp.val = k.val) (ht : exec (.call nnn) s = .next t) (hpc : p ≠ .pc)
    (hsp : p ≠ .sp) (hstack : p ≠ .stack k) : p.Same s t := by
  obtain rfl := Host.Outcome.next.inj ((exec_call_of_sp nnn h).symm.trans ht)
  exact ((Part.same_setStack s.pc hstack).trans (Part.same_setSp k.succ hsp)).trans (Part.same_jump (zext12 nnn) hpc)

/-- Settles O21, from the frames of a jump, of a return, of a call, and of the fault that each of the last two takes. -/
theorem controlFlowFrame : Obligations.ControlFlowFrame := by
  unfold Obligations.ControlFlowFrame
  intro nnn x y nn s t p hpc
  refine ⟨fun i hi ht => ?_, fun h ht hsp => Part.same_ret h ht hpc hsp, fun h ht hfault => ?_, fun h ht hsp hstack => ?_,
    fun h ht hfault => ?_⟩
  · obtain ⟨a, ha⟩ := exec_eq_jump s hi
    obtain rfl := Host.Outcome.next.inj (ha.symm.trans ht)
    exact Part.same_jump a hpc
  · exact Part.same_takeFault ((exec_ret_of_empty h).symm.trans ht) hpc hfault
  · have hlt : s.sp.val < 16 := by omega
    exact Part.same_call (k := ⟨s.sp.val, hlt⟩) rfl ht hpc hsp fun hp => hstack _ hp rfl
  · exact Part.same_takeFault ((exec_call_of_full nnn h).symm.trans ht) hpc hfault

end Sys2Proof.Machine

/-! SUPPORT. The host operations on the timers, the keys and the display (rules R88 to R92). -/

namespace Sys2Proof.Machine

/-! ### Timers -/

/-- A timer one frame later is one less, and 0 stays 0 (rule R88). -/
theorem countDown_toNat (t : Byte) : (countDown t).toNat = t.toNat - 1 := by
  unfold countDown
  split
  · bv_omega
  · omega

/-- The frame on which the sound timer is 1 is the one that beeps (rule R89). -/
theorem State.tickTimers_beep (s : State) : s.tickTimers.2 = decide (s.st.toNat = 1) := by
  rw [Bool.eq_iff_iff, decide_eq_true_iff, State.tickTimers, beq_iff_eq, ← BitVec.toNat_inj]
  rfl

/-- Settles O53: both timers count down, and no other part is a timer. -/
theorem tickTimersCountsDown : Obligations.TickTimersCountsDown := by
  unfold Obligations.TickTimersCountsDown
  refine fun s => ⟨_, _, rfl, countDown_toNat s.dt, countDown_toNat s.st, ?_, fun p hdt hst => ?_⟩
  · rw [State.tickTimers_beep, decide_eq_true_iff]
  · exact (Part.same_setDt (countDown s.dt) hdt).trans (Part.same_setSt (countDown s.st) hst)

/-- Settles O54, by induction on the frames: after the first of them each timer is one less, so the beep is one call nearer. -/
theorem timersFloorAndBeepOnce : Obligations.TimersFloorAndBeepOnce := by
  unfold Obligations.TimersFloorAndBeepOnce
  intro n
  induction n with
  | zero => exact fun s => ⟨rfl, rfl, rfl⟩
  | succ n ih =>
    intro s
    obtain ⟨hdt, hst, hbeeps⟩ := ih s.tickTimers.1
    rw [State.tickTimers_dt, countDown_toNat] at hdt
    rw [State.tickTimers_st, countDown_toNat] at hst hbeeps
    simp only [List.replicate_succ, hostCalls, hostCall]
    refine ⟨hdt.trans (by omega), hst.trans (by omega), ?_⟩
    have hlater : ∀ k, (s.st.toNat - 1 = k + 1) = (s.st.toNat = k + 1 + 1) := fun k => propext (by omega)
    simp only [hbeeps, hlater, State.tickTimers_beep, List.range_succ_eq_map, List.map_cons, List.map_map]
    rfl

/-! ### Keys and display -/

/-- A key set leaves every other part (rule R91). -/
theorem Part.same_setKey {s : State} {p : Part} {k : Fin 16} (pressed : Bool) (h : p ≠ .key k) :
    p.Same s (s.setKey k pressed) := by
  cases p with
  | key j => exact Vector.getElem_set_ne k.isLt j.isLt fun e => h (congrArg Part.key (Fin.ext e.symm))
  | _ => rfl

/-- Settles O55: the key reads as it was set, and the other parts are as before. -/
theorem setKeyWritesOneKey : Obligations.SetKeyWritesOneKey := by
  unfold Obligations.SetKeyWritesOneKey
  exact fun k pressed s => ⟨_, rfl, Vector.getElem_set_self k.isLt, fun p hp => Part.same_setKey pressed hp⟩

/-- The cells shown are the rows one after another (rules R13, R92). -/
theorem State.getDisplay_eq_flatten (s : State) : s.getDisplay = s.display.flatten.toList := by
  simp only [State.getDisplay, Vector.flatten, Vector.toList, Array.toList_flatten, Array.toList_map, List.map_map]
  rfl

/-- Cell (x, y) is shown at `x + 64*y` (rule R92). -/
theorem State.getDisplay_getElem? (s : State) (x : Fin 64) (y : Fin 32) :
    s.getDisplay[x.val + 64 * y.val]? = some (s.display.cell x y) := by
  have hlt : x.val + 64 * y.val < 32 * 64 := by omega
  have hrow : (x.val + 64 * y.val) / 64 = y.val := by omega
  have hcol : (x.val + 64 * y.val) % 64 = x.val := by omega
  rw [State.getDisplay_eq_flatten, Vector.getElem?_toList, Vector.getElem?_flatten, dif_pos hlt]
  simp only [hrow, hcol]
  rfl

/-- Settles O56: 32 rows of 64 cells, one after another. -/
theorem getDisplayIsRowMajor : Obligations.GetDisplayIsRowMajor := by
  unfold Obligations.GetDisplayIsRowMajor
  refine fun s => ⟨_, rfl, ?_, s.getDisplay_getElem?⟩
  rw [State.getDisplay_eq_flatten, Vector.length_toList]

end Sys2Proof.Machine

/-! SUPPORT. The reset state and the two calls that give it, and what `load` does with as many bytes as it takes and with more
(rules R18, R98 to R101). -/

namespace Sys2Proof.Machine

variable {a : Nat} {bs : List Byte}

/-! ### The reset state -/

theorem font_length : font.length = 80 := rfl

/-- An address of the font reads as the font's byte until something is stored there (rule R18). -/
theorem Memory.initial_of_lt (h : a < font.length) : Memory.initial a = font[a] := List.getD_eq_getElem font 0#8 h

/-- An address above the font reads as 0 until something is stored there (rule R18). -/
theorem Memory.initial_of_le (h : 80 ≤ a) : Memory.initial a = 0#8 := List.getD_eq_default font 0#8 (font_length.trans_le h)

/-- The reset memory lists nothing, so an address reads as its reset contents (rule R100). -/
theorem State.reset_read (a : Nat) : State.reset.mem.read a = Memory.initial a := rfl

/-- Every cell of the reset display is unlit (rule R100). -/
theorem State.reset_cellAt (k : Fin 2048) : State.reset.display.cellAt k = false := Display.cell_clear _ _

/-- Settles O58: the arrays hold one value throughout, and memory reads as its reset contents. -/
theorem resetStateIsAsStated : Obligations.ResetStateIsAsStated := by
  unfold Obligations.ResetStateIsAsStated
  refine ⟨fun x => ?regs, rfl, rfl, rfl, fun k => ?stack, rfl, rfl, State.reset_cellAt, fun k => ?keys, fun a h => ?font,
    font_length, fun a h _ => ?zeros, rfl⟩
  case regs => exact Vector.getElem_replicate x.isLt
  case stack => exact Vector.getElem_replicate k.isLt
  case keys => exact Vector.getElem_replicate k.isLt
  case font => exact (State.reset_read a).trans (Memory.initial_of_lt h)
  case zeros => exact (State.reset_read a).trans (Memory.initial_of_le h)

/-- Settles O51: a restart of any state meets the invariant, which does not speak of the draws that a restart keeps. -/
theorem resetMeetsInvariant : Obligations.ResetMeetsInvariant :=
  State.reset.restart_inv.of_frame rfl rfl rfl rfl

/-- Settles O59: both calls restart the state, whatever its latch. -/
theorem resetRestoresEveryField : Obligations.ResetRestoresEveryField := by
  unfold Obligations.ResetRestoresEveryField
  rintro c s (rfl | rfl)
  · rfl
  · rfl

/-! ### Load -/

/-- A load of more than 3584 bytes is refused and changes nothing (rule R101). -/
theorem hostCall_load_of_lt (s : State) (h : Config.loadMax < bs.length) : hostCall (.load bs) s = (s, .loadTooLarge) := by
  simp only [hostCall, State.load, if_pos h]

/-- Settles O57: a load that fits is a copy to address 512 up, which leaves every part but the bytes it stores. -/
theorem loadCopiesOrRefuses : Obligations.LoadCopiesOrRefuses := by
  unfold Obligations.LoadCopiesOrRefuses
  refine fun bytes s => ⟨fun hfits => ⟨_, hostCall_load_of_le s hfits, fun k hk => ?copied, fun p hp => ?frame⟩,
    hostCall_load_of_lt s⟩
  case copied => exact Memory.read_store_getElem s.mem Config.programStart hk
  case frame => exact Part.same_store hp

end Sys2Proof.Machine
